-- ==== Sys2Proof/Word.lean ====
section
/-! DEFINITION. The widths of the machine's values (`00_scope.md` R6, R7, R8): every value is an
unsigned integer of one of these widths. -/
namespace Sys2Proof

/-- A byte: a general register, a timer, a memory cell, an immediate kk (R6, R21). -/
abbrev Byte := BitVec 8

/-- A 16-bit value: I, PC, a return address, an instruction word (R6, R23, R24, R82). -/
abbrev Word := BitVec 16

/-- The 12-bit address field nnn (R83). -/
abbrev Addr := BitVec 12

/-- A register index 0..15, as the fields x and y name it (R83). -/
abbrev Reg := Fin 16

/-- `zext_16` of R8, for the 12-bit field nnn and for a byte. -/
def zext16 {n : Nat} (b : BitVec n) : Word := b.setWidth 16

end Sys2Proof
end

