-- ==== Sys2Proof/Config.lean ====
section
/-! DEFINITION. The parameters of the hardware (`00_scope.md` R6): the fixed sizes, the default of
FONT_ROM, and the free value behind the random source. -/
namespace Sys2Proof.Config

/-- `MEM_SIZE` (R6): addresses 0x000 to 0xFFF. -/
abbrev memSize : Nat := 4096

/-- `GLYPH_BYTES` (R6): bytes of one glyph. -/
abbrev glyphBytes : Nat := 5

/-- The 80 bytes of the font, from `FONT_BASE` = 0x000 (R6, R36). -/
abbrev fontBytes : Nat := 80

/-- `PROG_BASE` (R6). -/
abbrev progBase : Nat := 0x200

/-- `PROG_MAX` (R6): 4096 − 0x200. -/
abbrev progMax : Nat := 3584

/-- `STACK_DEPTH` (R6). -/
abbrev stackDepth : Nat := 16

/-- `NUM_KEYS` (R6). -/
abbrev numKeys : Nat := 16

/-- `DISP_W` (R6). -/
abbrev dispW : Nat := 64

/-- `DISP_H` (R6). -/
abbrev dispH : Nat := 32

/-- `SPRITE_W` (R6). -/
abbrev spriteW : Nat := 8

/-- `INSN_BYTES` (R6). -/
abbrev insnBytes : Nat := 2

/-- The default of the parameter `FONT_ROM`: the conventional table printed in R36.
PRESUMED (log 1, unsafe): the source gives the font's size and place and not its bytes, and R36 marks
the table as general knowledge. The machine's font is the state's field `fontRom`; this value stands
only in `State.reset`, and no statement may rest on it. -/
def defaultFontRom : Vector Byte fontBytes :=
  #v[0xF0, 0x90, 0x90, 0x90, 0xF0,   0x20, 0x60, 0x20, 0x20, 0x70,
     0xF0, 0x10, 0xF0, 0x80, 0xF0,   0xF0, 0x10, 0xF0, 0x10, 0xF0,
     0x90, 0x90, 0xF0, 0x10, 0x10,   0xF0, 0x80, 0xF0, 0x10, 0xF0,
     0xF0, 0x80, 0xF0, 0x90, 0xF0,   0xF0, 0x10, 0x20, 0x40, 0x40,
     0xF0, 0x90, 0xF0, 0x90, 0xF0,   0xF0, 0x90, 0xF0, 0x10, 0xF0,
     0xF0, 0x90, 0xF0, 0x90, 0x90,   0xE0, 0x90, 0xE0, 0x90, 0xE0,
     0xF0, 0x80, 0x80, 0x80, 0xF0,   0xE0, 0x90, 0x90, 0x90, 0xE0,
     0xF0, 0x80, 0xF0, 0x80, 0xF0,   0xF0, 0x80, 0xF0, 0x80, 0x80]

/-- The random byte of the n-th draw for which the host has injected none (R133: "a free draw, any
value 0..255, under no law"). A free value: it has no body (log 2, DESIGN CHOICE, safe). -/
opaque randomByte : Nat → Byte

end Sys2Proof.Config
end

