-- ==== Sys2Proof/Syntax.lean ====
section
/-! DEFINITION. The instruction set: one constructor per row of `spec/opcode_table.json`
(`30_encoding.md` R85), with the operands of its shape (R82, R83). -/
namespace Sys2Proof

/-- The 34 instructions, in the order of R85. x and y name registers, kk is an immediate byte, nnn a
12-bit address, n a count of rows (bounded in `WellFormed`). -/
inductive Instr where
  /-- 00E0 CLS -/
  | cls
  /-- 00EE RET -/
  | ret
  /-- 1nnn JP addr -/
  | jp (nnn : Addr)
  /-- 2nnn CALL addr -/
  | call (nnn : Addr)
  /-- 3xkk SE Vx, byte -/
  | seImm (x : Reg) (kk : Byte)
  /-- 4xkk SNE Vx, byte -/
  | sneImm (x : Reg) (kk : Byte)
  /-- 5xy0 SE Vx, Vy -/
  | seReg (x y : Reg)
  /-- 6xkk LD Vx, byte -/
  | ldImm (x : Reg) (kk : Byte)
  /-- 7xkk ADD Vx, byte -/
  | addImm (x : Reg) (kk : Byte)
  /-- 8xy0 LD Vx, Vy -/
  | ldReg (x y : Reg)
  /-- 8xy1 OR Vx, Vy -/
  | orReg (x y : Reg)
  /-- 8xy2 AND Vx, Vy -/
  | andReg (x y : Reg)
  /-- 8xy3 XOR Vx, Vy -/
  | xorReg (x y : Reg)
  /-- 8xy4 ADD Vx, Vy -/
  | addReg (x y : Reg)
  /-- 8xy5 SUB Vx, Vy -/
  | subReg (x y : Reg)
  /-- 8xy6 SHR Vx, Vy; y is encoded and ignored (R129) -/
  | shr (x y : Reg)
  /-- 8xy7 SUBN Vx, Vy -/
  | subnReg (x y : Reg)
  /-- 8xyE SHL Vx, Vy; y is encoded and ignored (R131) -/
  | shl (x y : Reg)
  /-- 9xy0 SNE Vx, Vy -/
  | sneReg (x y : Reg)
  /-- Annn LD I, addr -/
  | ldI (nnn : Addr)
  /-- Bnnn JP V0, addr -/
  | jpV0 (nnn : Addr)
  /-- Cxkk RND Vx, byte -/
  | rnd (x : Reg) (kk : Byte)
  /-- Dxyn DRW Vx, Vy, nibble; n counts sprite rows -/
  | drw (x y : Reg) (n : Nat)
  /-- Ex9E SKP Vx -/
  | skp (x : Reg)
  /-- ExA1 SKNP Vx -/
  | sknp (x : Reg)
  /-- Fx07 LD Vx, DT -/
  | ldVxDt (x : Reg)
  /-- Fx0A LD Vx, K -/
  | ldVxK (x : Reg)
  /-- Fx15 LD DT, Vx -/
  | ldDtVx (x : Reg)
  /-- Fx18 LD ST, Vx -/
  | ldStVx (x : Reg)
  /-- Fx1E ADD I, Vx -/
  | addIVx (x : Reg)
  /-- Fx29 LD F, Vx -/
  | ldFVx (x : Reg)
  /-- Fx33 LD B, Vx -/
  | ldBVx (x : Reg)
  /-- Fx55 LD [I], Vx: store V0..Vx -/
  | storeRegs (x : Reg)
  /-- Fx65 LD Vx, [I]: load V0..Vx -/
  | loadRegs (x : Reg)
  deriving DecidableEq, Repr

end Sys2Proof
end

