-- ==== Sys2Proof/Machine/State.lean ====
section
/-! DEFINITION. The state of the core (`10_state.md` R20), the reasons an operation stops
(`60_exceptions.md` R170, `10_state.md` R46), and the state after reset (R39). -/
namespace Sys2Proof.Machine

/-- Where the core is in its lifecycle (R37). -/
inductive Phase where
  /-- After `initialize()`: a program may be loaded. -/
  | init
  /-- After a successful `load_program`: the core may step. -/
  | loaded
  deriving DecidableEq, Repr

/-- Memory as the cells that differ from what an unlisted address reads as, in rising order of
address (log 7). -/
abbrev Memory := List Host.Cell

/-- The contents of FONT_ROM (R6, R36). -/
abbrev FontRom := Vector Byte Config.fontBytes

/-- The display buffer: row y holds the pixels (0, y) to (63, y), pixel (x, y) at bit x (R33; log 9). -/
abbrev Display := Vector (BitVec Config.dispW) Config.dispH

/-- The state of the core: the components of R20, then the two parameters of R6 that the spec keeps
outside the core (log 1, log 2). -/
structure State where
  /-- `Mem` (R50): see `Memory`. -/
  mem : Memory
  /-- V0 to VF; VF is `v[15]` (R21, R22). -/
  v : Vector Byte 16
  /-- The index register I (R23). -/
  i : Word
  /-- The program counter (R24). -/
  pc : Word
  /-- The return-address slots (R27). -/
  stack : Vector Word Config.stackDepth
  /-- The number of occupied slots, 0 to 16 (R28). -/
  sp : Fin 17
  /-- The delay timer (R32). -/
  dt : Byte
  /-- The sound timer (R32). -/
  st : Byte
  /-- The display buffer (R33). -/
  disp : Display
  /-- The input latch: `key[k]` is true while key k is pressed (R34). -/
  key : Vector Bool Config.numKeys
  /-- The lifecycle phase (R37). -/
  phase : Phase
  /-- The parameter FONT_ROM (R36); no operation writes it (log 1). -/
  fontRom : FontRom
  /-- Random bytes the host has injected and no Cxkk has consumed, oldest first (R133; log 2). -/
  rngQueue : List Byte
  /-- How many free random bytes Cxkk has drawn (R133; log 2). -/
  rngCount : Nat
  deriving DecidableEq, Repr

/-- The faults of R170, each with the record of R171: pc is A, the address the step fetched from, and
the last argument is the recorded info. A faulting operation commits nothing (R173; log 6). -/
inductive Fault where
  /-- Raised by `load_program` on an image longer than 3584 bytes (R192). Safe: the spec's own fault. -/
  | sizeError (length : Nat)
  /-- Raised by fetch, Dxyn, Fx33, Fx55 and Fx65 on an address above 0xFFF; `addr` is the first one
  (R53, R55, R81). Safe: the spec's own fault. -/
  | addressError (pc : Word) (addr : Nat)
  /-- Raised by 2nnn with SP = 16 (R30). Safe: the spec's own fault. -/
  | stackOverflow (pc : Word) (sp : Nat)
  /-- Raised by 00EE with SP = 0 (R31). Safe: the spec's own fault. -/
  | stackUnderflow (pc : Word) (sp : Nat)
  /-- Raised by a step that fetched a word of no row of R85 (R87). Safe: the spec's own fault. -/
  | decodeError (pc : Word) (word : Word)
  /-- Raised by Ex9E and ExA1 with V[x] > 15 (R115, R116). Safe: the spec's own fault. -/
  | keyIndexError (pc : Word) (value : Byte)
  deriving DecidableEq, Repr

/-- Operations the spec gives no meaning (R46), and instructions of no meaning yet. -/
inductive Refusal where
  /-- Raised by exec's arm of an instruction that has no meaning in the model. Safe. -/
  | notModelled (mnemonic : String)
  /-- Raised by `step()` and `skip()` when Phase is not Loaded (R46). Safe. -/
  | notLoaded
  /-- Raised by `load_program` when Phase is not Init (R46). Safe. -/
  | alreadyLoaded
  /-- Raised by `set_key` with an index outside 0..15 (R46). Safe. -/
  | keyOutOfRange (index : Nat)
  deriving DecidableEq, Repr

/-- What an operation of the core answers. -/
abbrev Result := Host.Outcome State Fault Refusal

/-- The names of the faults (R170). -/
inductive FaultKind where
  | sizeError | addressError | stackOverflow | stackUnderflow | decodeError | keyIndexError
  deriving DecidableEq, Repr

/-- The record `Fault{kind, pc, info}` of R171; `SizeError` has no pc. -/
structure FaultRecord where
  kind : FaultKind
  pc : Option Word
  info : Nat
  deriving DecidableEq, Repr

/-- What a successful step returns to the host (R41). -/
structure StepOutcome where
  drawNeeded : Bool
  soundRequested : Bool
  deriving DecidableEq, Repr

/-- The state of R39 for a machine whose FONT_ROM holds `font` and whose random source stands at
`queue` and `count`. -/
def State.initial (font : FontRom) (queue : List Byte) (count : Nat) : State where
  mem := []
  v := Vector.replicate 16 0
  i := 0
  pc := 0x0200
  stack := Vector.replicate Config.stackDepth 0
  sp := 0
  dt := 0
  st := 0
  disp := Vector.replicate Config.dispH 0
  key := Vector.replicate Config.numKeys false
  phase := .init
  fontRom := font
  rngQueue := queue
  rngCount := count

/-- The machine right after `initialize()` (R39, R190). The font is the default of R36 (PRESUMED,
log 1); no random byte has been injected and none drawn (DESIGN CHOICE, log 2). -/
def State.reset : State := State.initial Config.defaultFontRom [] 0

end Sys2Proof.Machine
end

