-- ==== Sys2Proof/Machine/Ops.lean ====
section
/-! DEFINITION. The operations every meaning is built from: memory (`20_memory.md`), the register file,
the call stack (`10_state.md` R30, R31), raising a fault (`60_exceptions.md` R171) and the host's way on
after one (R180), the display's pixels (`44_display.md`), and the timer tick (`45_timers_input.md` R160). -/
namespace Sys2Proof.Machine

/-! ### Memory (R50 to R58) -/

/-- What an unlisted address reads as: the contents `initialize()` gives it, FONT_ROM below 0x050 and
zero above (R39, R51, R190; log 7). -/
def unlisted (font : FontRom) (a : Nat) : Byte :=
  if h : a < Config.fontBytes then font[a] else 0

/-- The value listed at an address, if one is. -/
def Memory.lookup : Memory → Nat → Option Byte
  | [], _ => none
  | (b, w) :: rest, a => if a = b then some w else Memory.lookup rest a

/-- The byte at an address (R53, for an address in range). -/
def Memory.read (font : FontRom) (m : Memory) (a : Nat) : Byte :=
  (Memory.lookup m a).getD (unlisted font a)

/-- The cells that make address `a` read as `w`: none when it reads so unlisted. -/
def Memory.entry (font : FontRom) (a : Nat) (w : Byte) : Memory :=
  if w = unlisted font a then [] else [(a, w)]

/-- Memory with the byte at one address replaced (R54, for an address in range), in canonical form. -/
def Memory.write (font : FontRom) : Memory → Nat → Byte → Memory
  | [], a, w => Memory.entry font a w
  | c :: rest, a, w =>
    if a < c.1 then Memory.entry font a w ++ c :: rest
    else if a = c.1 then Memory.entry font a w ++ rest
    else c :: Memory.write font rest a w

/-- Memory with the bytes at `a`, `a + 1`, … replaced by those of a list (R56). The addresses are
distinct, so the order of the writes does not matter. -/
def Memory.writeBytes (font : FontRom) (m : Memory) (a : Nat) : List Byte → Memory
  | [] => m
  | w :: ws => Memory.write font (Memory.writeBytes font m (a + 1) ws) a w

/-- The canonical form: addresses strictly rising, every address in 0x000 to 0xFFF (R50), and no cell
equal to what its address reads as unlisted. -/
abbrev Memory.wf (font : FontRom) (m : Memory) : Prop :=
  m.Pairwise (fun c d => c.1 < d.1) ∧
    ∀ c ∈ m, c.1 < Config.memSize ∧ c.2 ≠ unlisted font c.1

/-- `MemRead(addr, 1)` of an address in range (R53). -/
def State.readByte (s : State) (a : Nat) : Byte := Memory.read s.fontRom s.mem a

/-- The bytes at `a`, `a + 1`, …, `a + len − 1`. -/
def State.readBytes (s : State) (a len : Nat) : List Byte :=
  (List.range len).map fun k => s.readByte (a + k)

/-- `MemWrite` of a list of bytes at ascending addresses in range (R54, R56). -/
def State.storeBytes (s : State) (a : Nat) (ws : List Byte) : State :=
  { s with mem := Memory.writeBytes s.fontRom s.mem a ws }

/-- `CheckRange(a, len)` (R55): the first of `a`, `a + 1`, …, `a + len − 1` outside [0, 4095]. -/
def checkRange : Nat → Nat → Option Nat
  | _, 0 => none
  | a, len + 1 => if a < Config.memSize then checkRange (a + 1) len else some a

/-! ### Registers (R21 to R24, R32, R34) -/

/-- V[x] (R9, R21). -/
def State.getV (s : State) (x : Reg) : Byte := s.v[x.val]

/-- `V[x] <- b` (R9, R21). -/
def State.setV (s : State) (x : Reg) (b : Byte) : State := { s with v := s.v.set x.val b }

/-- VF, the flag register (R22). -/
abbrev vF : Reg := 15

/-- V[0..x] replaced by the bytes a function gives (R146). -/
def State.setVUpTo (s : State) (x : Reg) (f : Nat → Byte) : State :=
  { s with v := Vector.ofFn fun k => if k.val ≤ x.val then f k.val else s.v[k.val] }

/-- The registers V[0..x] in order (R145). -/
def State.getVUpTo (s : State) (x : Reg) : List Byte := s.v.toList.take (x.val + 1)

/-- `I <- w` (R9). -/
def State.setI (s : State) (w : Word) : State := { s with i := w }

/-- `PC <- w` (R9). -/
def State.setPc (s : State) (w : Word) : State := { s with pc := w }

/-- PC + 2 mod 65536: the fetch's advance, a skip's, and the host's (R24, R110, R180; D26). -/
def State.advance (s : State) : State := s.setPc (s.pc + 2)

/-- `DT <- b` (R164). -/
def State.setDt (s : State) (b : Byte) : State := { s with dt := b }

/-- `ST <- b` (R165). -/
def State.setSt (s : State) (b : Byte) : State := { s with st := b }

/-- `Disp` replaced. -/
def State.setDisp (s : State) (d : Display) : State := { s with disp := d }

/-! ### Faults (R170 to R173) and the host's way on (R180)

The core has no trap entry and no trap return (R176, R177): a fault is the operation's result. -/

/-- `raise E(info)` during execution (R10, R171): the fault's pc is A. Execution sees PC = A + 2
(R80), so A is PC − 2 (log 5). -/
def raise (s : State) (fault : Word → Fault) : Result := .fault (fault (s.pc - 2))

/-- `CheckRange(a, len)` before the rest of an instruction, which is the state `ok` (R55). -/
def guardRange (s : State) (a len : Nat) (ok : State) : Result :=
  match checkRange a len with
  | none => .next ok
  | some bad => raise s (.addressError · bad)

/-- The kind of a fault (R170). -/
def Fault.kind : Fault → FaultKind
  | .sizeError _ => .sizeError
  | .addressError _ _ => .addressError
  | .stackOverflow _ _ => .stackOverflow
  | .stackUnderflow _ _ => .stackUnderflow
  | .decodeError _ _ => .decodeError
  | .keyIndexError _ _ => .keyIndexError

/-- The code of a fault (R170; D15). -/
def FaultKind.code : FaultKind → Nat
  | .sizeError => 1
  | .addressError => 2
  | .stackOverflow => 3
  | .stackUnderflow => 4
  | .decodeError => 5
  | .keyIndexError => 6

/-- The record the host is given (R171). -/
def Fault.record : Fault → FaultRecord
  | .sizeError n => ⟨.sizeError, none, n⟩
  | .addressError pc a => ⟨.addressError, some pc, a⟩
  | .stackOverflow pc n => ⟨.stackOverflow, some pc, n⟩
  | .stackUnderflow pc n => ⟨.stackUnderflow, some pc, n⟩
  | .decodeError pc w => ⟨.decodeError, some pc, w.toNat⟩
  | .keyIndexError pc k => ⟨.keyIndexError, some pc, k.toNat⟩

/-! ### The call stack (R27 to R31) -/

/-- `Push(a)` then the rest of the call (R30): the slot `Stack[SP]`, then SP + 1; StackOverflow when
SP = 16. -/
def push (s : State) (a : Word) (rest : State → State) : Result :=
  if h : s.sp.val < Config.stackDepth then
    .next (rest { s with
      stack := s.stack.set s.sp.val a
      sp := ⟨s.sp.val + 1, Nat.succ_lt_succ h⟩ })
  else raise s (.stackOverflow · s.sp.val)

/-- `Pop()` then the rest of the return (R31): SP − 1, then the slot `Stack[SP]`, which keeps its
value; StackUnderflow when SP = 0. -/
def pop (s : State) (rest : Word → State → State) : Result :=
  match s.sp with
  | ⟨0, _⟩ => raise s (.stackUnderflow · 0)
  | ⟨n + 1, h⟩ =>
    .next (rest (s.stack[n]'(Nat.lt_of_succ_lt_succ h))
      { s with sp := ⟨n, Nat.lt_of_succ_lt h⟩ })

/-! ### The display buffer (R33, R150 to R152) -/

/-- A pixel's place: its column and its row. -/
abbrev Pixel := Fin Config.dispW × Fin Config.dispH

/-- Pixel addressing wraps, each coordinate on its own (R152). -/
def wrapPixel (col row : Nat) : Pixel :=
  (⟨col % Config.dispW, Nat.mod_lt _ (by decide)⟩, ⟨row % Config.dispH, Nat.mod_lt _ (by decide)⟩)

/-- `Disp[x, y]` (R9, R33). -/
def Display.pixel (d : Display) (p : Pixel) : Bool := d[p.2.val].getLsbD p.1.val

/-- `Disp[x, y] <- Disp[x, y] ^ 1` (R151). -/
def Display.flip (d : Display) (p : Pixel) : Display :=
  d.set p.2.val (d[p.2.val] ^^^ BitVec.twoPow Config.dispW p.1.val)

/-- Every pixel 0 (R153). -/
def Display.clear : Display := Vector.replicate Config.dispH 0

/-- The pixels one sprite row sets, leftmost first: bit 7 − c of the byte is column c (R151). -/
def rowPixels (px py : Nat) (row : Byte) : List Pixel :=
  ((List.range Config.spriteW).filter fun c => row.getLsbD (7 - c)).map fun c =>
    wrapPixel (px + c) py

/-- The pixels a sprite sets, row by row from the top (R151). -/
def spritePixels (px py : Nat) : List Byte → List Pixel
  | [] => []
  | row :: rows => rowPixels px py row ++ spritePixels px (py + 1) rows

/-- The XOR compositor (R150, R151): each pixel in turn is flipped, and the flag becomes 1 when the
pixel was set. -/
def blit : Display → Byte → List Pixel → Display × Byte
  | d, flag, [] => (d, flag)
  | d, flag, p :: ps => blit (Display.flip d p) (if Display.pixel d p then 1 else flag) ps

/-! ### Timers (R160) and the random source (R133) -/

/-- A counter counted down once, saturating at 0 (R160). -/
def countDown (b : Byte) : Byte := if b ≠ 0 then b - 1 else b

/-- `Tick()` (R160). -/
def State.tick (s : State) : State := { s with dt := countDown s.dt, st := countDown s.st }

/-- `RandomByte()`, the byte the next Cxkk draws: the oldest one the host has injected, or else a free
value (R133; log 2). -/
def State.randomByte (s : State) : Byte :=
  match s.rngQueue with
  | r :: _ => r
  | [] => Config.randomByte s.rngCount

/-- The draw of one byte consumed: each Cxkk consumes exactly one (R133; log 2). -/
def State.dropRandom (s : State) : State :=
  match s.rngQueue with
  | _ :: rest => { s with rngQueue := rest }
  | [] => { s with rngCount := s.rngCount + 1 }

end Sys2Proof.Machine
end

