-- ==== Sys2Proof/Machine/Operands.lean ====
section
/-! DEFINITION. The operand forms (`30_encoding.md` R83) beyond a plain register and a plain immediate:
the address operand, memory through I, the font glyph address, the key port, and the sprite. -/
namespace Sys2Proof.Machine

/-- The target of a jump or call, and the operand of Annn: nnn zero-extended (R83). -/
def addrOperand (nnn : Addr) : Word := zext16 nnn

/-- The target of Bnnn: nnn + V0, which never wraps (R104). -/
def offsetTarget (nnn : Addr) (s : State) : Word := zext16 nnn + zext16 (s.getV 0)

/-- The effective address `I + k`, computed without reduction (R58, R140). -/
def indexAddress (s : State) (k : Nat) : Nat := s.i.toNat + k

/-- `zext_16(V[x]) * 5`, the address of glyph V[x] (R143). -/
def glyphAddress (x : Reg) (s : State) : Word := zext16 (s.getV x) * 5

/-- The three decimal digits of a byte, most significant first (R144). -/
def bcdDigits (b : Byte) : List Byte :=
  [BitVec.ofNat 8 (b.toNat / 100), BitVec.ofNat 8 (b.toNat / 10 % 10), BitVec.ofNat 8 (b.toNat % 10)]

/-- The read port of the input latch for Ex9E and ExA1 (R115, R116, R167): `Key[V[x]]`, or
KeyIndexError when V[x] > 15. -/
def withKey (x : Reg) (s : State) (rest : Bool → State) : Result :=
  if h : (s.getV x).toNat < Config.numKeys then .next (rest s.key[(s.getV x).toNat])
  else raise s (.keyIndexError · (s.getV x))

/-- The read port of the input latch for Fx0A (R163, R167): the lowest pressed key, if one is pressed. -/
def State.firstKey (s : State) : Option (Fin Config.numKeys) :=
  (List.finRange Config.numKeys).find? fun k => s.key[k.val]

/-- The sprite rows of Dxyn: n bytes from I (R151). -/
def spriteRows (s : State) (n : Nat) : List Byte := s.readBytes (indexAddress s 0) n

/-- The pixels Dxyn touches, from the coordinates V[x], V[y] and the address I as they stand before the
instruction (R151; D7). -/
def drawPixels (x y : Reg) (n : Nat) (s : State) : List Pixel :=
  spritePixels (s.getV x).toNat (s.getV y).toNat (spriteRows s n)

end Sys2Proof.Machine
end

