-- ==== Sys2Proof/Machine/Flags.lean ====
section
/-! DEFINITION. The values VF is given (`10_state.md` R22, `42_register_alu.md` R127 to R131), and the
order of the two writes (R119). The collision flag is computed by the compositor, `blit`. -/
namespace Sys2Proof.Machine

/-- A flag as VF holds it: 1 or 0 (R22). -/
def flagByte (b : Bool) : Byte := if b then 1 else 0

/-- Carry out of bit 7 (R127). -/
def carryFlag (a b : Byte) : Byte := flagByte (decide (a.toNat + b.toNat > 255))

/-- 1 when the first operand is strictly greater (R128, R130). -/
def greaterFlag (a b : Byte) : Byte := flagByte (decide (a.toNat > b.toNat))

/-- The bit a right shift moves out: bit 0 (R129). -/
def lowBitFlag (a : Byte) : Byte := a &&& 1

/-- The bit a left shift moves out: bit 7 (R131). -/
def highBitFlag (a : Byte) : Byte := a >>> 7

/-- The two statements "`VF = …; Vx = …`" in the order written (R119; D6): the flag is computed and
written first, and the result is computed from the registers as that write left them. -/
def flagThenResult (x y : Reg) (flag result : Byte → Byte → Byte) (s : State) : State :=
  let s1 := s.setV vF (flag (s.getV x) (s.getV y))
  s1.setV x (result (s1.getV x) (s1.getV y))

end Sys2Proof.Machine
end

