-- ==== Sys2Proof/Machine/Alu.lean ====
section
/-! DEFINITION. Register loads and arithmetic (`42_register_alu.md`). -/
namespace Sys2Proof.Machine

/-- 6xkk: `V[x] <- kk` (R121). -/
def execLdImm (x : Reg) (kk : Byte) (s : State) : Result := .next (s.setV x kk)

/-- 7xkk: `V[x] <- (V[x] + kk) mod 256`, no flag (R122). -/
def execAddImm (x : Reg) (kk : Byte) (s : State) : Result := .next (s.setV x (s.getV x + kk))

/-- 8xy0: `V[x] <- V[y]` (R123). -/
def execLdReg (x y : Reg) (s : State) : Result := .next (s.setV x (s.getV y))

/-- 8xy1: `V[x] <- V[x] | V[y]` (R124). -/
def execOrReg (x y : Reg) (s : State) : Result := .next (s.setV x (s.getV x ||| s.getV y))

/-- 8xy2: `V[x] <- V[x] & V[y]` (R125). -/
def execAndReg (x y : Reg) (s : State) : Result := .next (s.setV x (s.getV x &&& s.getV y))

/-- 8xy3: `V[x] <- V[x] ^ V[y]` (R126). -/
def execXorReg (x y : Reg) (s : State) : Result := .next (s.setV x (s.getV x ^^^ s.getV y))

/-- 8xy4: VF = carry, then the sum (R127). -/
def execAddReg (x y : Reg) (s : State) : Result :=
  .next (flagThenResult x y carryFlag (fun a b => a + b) s)

/-- 8xy5: VF = V[x] > V[y], then V[x] − V[y] (R128). -/
def execSubReg (x y : Reg) (s : State) : Result :=
  .next (flagThenResult x y greaterFlag (fun a b => a - b) s)

/-- 8xy6: VF = bit 0 of V[x], then V[x] >> 1; y is ignored (R129). -/
def execShr (x y : Reg) (s : State) : Result :=
  .next (flagThenResult x y (fun a _ => lowBitFlag a) (fun a _ => a >>> 1) s)

/-- 8xy7: VF = V[y] > V[x], then V[y] − V[x] (R130). -/
def execSubnReg (x y : Reg) (s : State) : Result :=
  .next (flagThenResult x y (fun a b => greaterFlag b a) (fun a b => b - a) s)

/-- 8xyE: VF = bit 7 of V[x], then V[x] << 1; y is ignored (R131). -/
def execShl (x y : Reg) (s : State) : Result :=
  .next (flagThenResult x y (fun a _ => highBitFlag a) (fun a _ => a <<< 1) s)

/-- Cxkk: `V[x] <- RandomByte() & kk`; the draw is consumed (R132, R133). -/
def execRnd (x : Reg) (kk : Byte) (s : State) : Result :=
  .next (s.dropRandom.setV x (s.randomByte &&& kk))

end Sys2Proof.Machine
end

