-- ==== Sys2Proof/Machine/Control.lean ====
section
/-! DEFINITION. Control transfer (`40_control_flow.md`). Every meaning of the families sees PC = A + 2
(`30_encoding.md` R80). -/
namespace Sys2Proof.Machine

/-- 00EE: `PC <- Pop()` (R101). -/
def execRet (s : State) : Result := pop s fun a t => t.setPc a

/-- 1nnn: `PC <- nnn` (R102). -/
def execJp (nnn : Addr) (s : State) : Result := .next (s.setPc (addrOperand nnn))

/-- 2nnn: `Push(PC); PC <- nnn` (R103). -/
def execCall (nnn : Addr) (s : State) : Result := push s s.pc fun t => t.setPc (addrOperand nnn)

/-- Bnnn: `PC <- nnn + V0` (R104). -/
def execJpV0 (nnn : Addr) (s : State) : Result := .next (s.setPc (offsetTarget nnn s))

end Sys2Proof.Machine
end

