-- ==== Sys2Proof/Machine/Index.lean ====
section
/-! DEFINITION. The index register and memory transfers (`43_index_memory.md`). No access changes I
(R140), and every address is checked before anything is read or written (R55). -/
namespace Sys2Proof.Machine

/-- Annn: `I <- nnn` (R141). -/
def execLdI (nnn : Addr) (s : State) : Result := .next (s.setI (addrOperand nnn))

/-- Fx1E: `I <- (I + V[x]) mod 65536`, no flag (R142; D12). -/
def execAddIVx (x : Reg) (s : State) : Result := .next (s.setI (s.i + zext16 (s.getV x)))

/-- Fx29: `I <- V[x] * 5` (R143). -/
def execLdFVx (x : Reg) (s : State) : Result := .next (s.setI (glyphAddress x s))

/-- Fx33: the decimal digits of V[x] to I, I + 1, I + 2 (R144). -/
def execLdBVx (x : Reg) (s : State) : Result :=
  guardRange s (indexAddress s 0) 3 (s.storeBytes (indexAddress s 0) (bcdDigits (s.getV x)))

/-- Fx55: V[0..x] to memory from I (R145). -/
def execStoreRegs (x : Reg) (s : State) : Result :=
  guardRange s (indexAddress s 0) (x.val + 1) (s.storeBytes (indexAddress s 0) (s.getVUpTo x))

/-- Fx65: V[0..x] from memory at I (R146). -/
def execLoadRegs (x : Reg) (s : State) : Result :=
  guardRange s (indexAddress s 0) (x.val + 1)
    (s.setVUpTo x fun k => s.readByte (indexAddress s k))

end Sys2Proof.Machine
end

