-- ==== Sys2Proof/Machine/Skip.lean ====
section
/-! DEFINITION. Conditional skips (`41_conditional_skip.md`). -/
namespace Sys2Proof.Machine

/-- A skip: PC + 2 more if the condition holds (R110). -/
def State.skipIf (s : State) (cond : Bool) : State := if cond then s.advance else s

/-- 3xkk: skip if V[x] = kk (R111). -/
def execSeImm (x : Reg) (kk : Byte) (s : State) : Result := .next (s.skipIf (s.getV x == kk))

/-- 4xkk: skip if V[x] ≠ kk (R112). -/
def execSneImm (x : Reg) (kk : Byte) (s : State) : Result := .next (s.skipIf (s.getV x != kk))

/-- 5xy0: skip if V[x] = V[y] (R113). -/
def execSeReg (x y : Reg) (s : State) : Result := .next (s.skipIf (s.getV x == s.getV y))

/-- 9xy0: skip if V[x] ≠ V[y] (R114). -/
def execSneReg (x y : Reg) (s : State) : Result := .next (s.skipIf (s.getV x != s.getV y))

/-- Ex9E: skip if key V[x] is pressed (R115). -/
def execSkp (x : Reg) (s : State) : Result := withKey x s fun pressed => s.skipIf pressed

/-- ExA1: skip if key V[x] is not pressed (R116). -/
def execSknp (x : Reg) (s : State) : Result := withKey x s fun pressed => s.skipIf (!pressed)

end Sys2Proof.Machine
end

