-- ==== Sys2Proof/Machine/Timers.lean ====
section
/-! DEFINITION. The timer and key-wait instructions (`45_timers_input.md`). The tick that ends their step
is the step's (R160), not theirs. -/
namespace Sys2Proof.Machine

/-- Fx07: `V[x] <- DT` (R162). -/
def execLdVxDt (x : Reg) (s : State) : Result := .next (s.setV x s.dt)

/-- Fx0A: the lowest pressed key into V[x]; with no key pressed, PC back on this instruction (R163). -/
def execLdVxK (x : Reg) (s : State) : Result :=
  match s.firstKey with
  | some k => .next (s.setV x (BitVec.ofNat 8 k.val))
  | none => .next (s.setPc (s.pc - 2))

/-- Fx15: `DT <- V[x]` (R164). -/
def execLdDtVx (x : Reg) (s : State) : Result := .next (s.setDt (s.getV x))

/-- Fx18: `ST <- V[x]` (R165). -/
def execLdStVx (x : Reg) (s : State) : Result := .next (s.setSt (s.getV x))

end Sys2Proof.Machine
end

