-- ==== Sys2Proof/Machine/Video.lean ====
section
/-! DEFINITION. The display instructions (`44_display.md`). -/
namespace Sys2Proof.Machine

/-- 00E0: every pixel 0 (R153). -/
def execCls (s : State) : Result := .next (s.setDisp Display.clear)

/-- Dxyn: XOR the n-row sprite at I onto the display at (V[x], V[y]); VF = collision (R151). -/
def execDrw (x y : Reg) (n : Nat) (s : State) : Result :=
  guardRange s (indexAddress s 0) n
    (let out := blit s.disp 0 (drawPixels x y n s)
     (s.setDisp out.1).setV vF out.2)

end Sys2Proof.Machine
end

