-- ==== Sys2Proof/Decode.lean ====
section
/-! DEFINITION. Decoding and encoding (`30_encoding.md` R81 to R89), both written from the opcode map
of R85 and the field layout of R82, R83; the opcode map itself, as data; and `decodeTableWord`. -/
namespace Sys2Proof

/-! ### Fields (R83) -/

/-- `ins[15:12]`, the group. -/
def opField (w : Word) : BitVec 4 := w.extractLsb' 12 4

/-- `ins[11:8]`, which names register x. -/
def xField (w : Word) : Reg := (w.extractLsb' 8 4).toFin

/-- `ins[7:4]`, which names register y. -/
def yField (w : Word) : Reg := (w.extractLsb' 4 4).toFin

/-- `ins[3:0]`, the count n or a subtype. -/
def nField (w : Word) : BitVec 4 := w.extractLsb' 0 4

/-- `ins[7:0]`, the immediate kk or a subtype. -/
def kkField (w : Word) : Byte := w.extractLsb' 0 8

/-- `ins[11:0]`, the address nnn. -/
def nnnField (w : Word) : Addr := w.extractLsb' 0 12

/-- Two bytes joined big-endian: `(hi << 8) | lo` (R57, R81). -/
def joinBytes (hi lo : Byte) : Word := hi ++ lo

/-- The byte of a word at the lower address (R57). -/
def hiByte (w : Word) : Byte := w.extractLsb' 8 8

/-- The byte of a word at the higher address (R57). -/
def loByte (w : Word) : Byte := w.extractLsb' 0 8

/-! ### Decoding -/

/-- Why bytes are no instruction. -/
inductive Reject where
  /-- Fewer than two bytes: every instruction is exactly two (R89). -/
  | truncated
  /-- The word matches no row of R85; it carries "the raw instruction value" (R84, R87). -/
  | illegal (w : Word)
  deriving DecidableEq, Repr

/-- Group 0x0: selected by the whole word (R84, R86). -/
def decodeGroup0 (w : Word) : Option Instr :=
  if w = 0x00E0 then some .cls
  else if w = 0x00EE then some .ret
  else none

/-- Group 0x8: selected by the low nibble (R84, R86). -/
def decodeGroup8 (x y : Reg) (n : BitVec 4) : Option Instr :=
  match n.toNat with
  | 0x0 => some (.ldReg x y)
  | 0x1 => some (.orReg x y)
  | 0x2 => some (.andReg x y)
  | 0x3 => some (.xorReg x y)
  | 0x4 => some (.addReg x y)
  | 0x5 => some (.subReg x y)
  | 0x6 => some (.shr x y)
  | 0x7 => some (.subnReg x y)
  | 0xE => some (.shl x y)
  | _ => none

/-- Group 0xE: selected by the low byte (R84, R86). -/
def decodeGroupE (x : Reg) (kk : Byte) : Option Instr :=
  match kk.toNat with
  | 0x9E => some (.skp x)
  | 0xA1 => some (.sknp x)
  | _ => none

/-- Group 0xF: selected by the low byte (R84, R86). -/
def decodeGroupF (x : Reg) (kk : Byte) : Option Instr :=
  match kk.toNat with
  | 0x07 => some (.ldVxDt x)
  | 0x0A => some (.ldVxK x)
  | 0x15 => some (.ldDtVx x)
  | 0x18 => some (.ldStVx x)
  | 0x1E => some (.addIVx x)
  | 0x29 => some (.ldFVx x)
  | 0x33 => some (.ldBVx x)
  | 0x55 => some (.storeRegs x)
  | 0x65 => some (.loadRegs x)
  | _ => none

/-- The row of R85 a word matches, by the case tree of R86; `none` where it matches no row. -/
def decodeRow (w : Word) : Option Instr :=
  match (opField w).toNat with
  | 0x0 => decodeGroup0 w
  | 0x1 => some (.jp (nnnField w))
  | 0x2 => some (.call (nnnField w))
  | 0x3 => some (.seImm (xField w) (kkField w))
  | 0x4 => some (.sneImm (xField w) (kkField w))
  | 0x5 => if nField w = 0 then some (.seReg (xField w) (yField w)) else none
  | 0x6 => some (.ldImm (xField w) (kkField w))
  | 0x7 => some (.addImm (xField w) (kkField w))
  | 0x8 => decodeGroup8 (xField w) (yField w) (nField w)
  | 0x9 => if nField w = 0 then some (.sneReg (xField w) (yField w)) else none
  | 0xA => some (.ldI (nnnField w))
  | 0xB => some (.jpV0 (nnnField w))
  | 0xC => some (.rnd (xField w) (kkField w))
  | 0xD => some (.drw (xField w) (yField w) (nField w).toNat)
  | 0xE => decodeGroupE (xField w) (kkField w)
  | 0xF => decodeGroupF (xField w) (kkField w)
  | _ => none

/-- `Decode(w)` (R86): total on every 16-bit word, and it reads no state. -/
def decodeWord (w : Word) : Except Reject Instr :=
  match decodeRow w with
  | some i => .ok i
  | none => .error (.illegal w)

/-- Decoding a byte sequence: the first two bytes, big-endian, and the rest (R57, R89). -/
def decode : List Byte → Except Reject (Instr × List Byte)
  | hi :: lo :: rest =>
    match decodeWord (joinBytes hi lo) with
    | .ok i => .ok (i, rest)
    | .error r => .error r
  | [_] => .error .truncated
  | [] => .error .truncated

/-! ### Encoding -/

/-- Shape A: group and nnn (R82). -/
def wordA (op : BitVec 4) (nnn : Addr) : Word := op ++ nnn

/-- A register index as a 4-bit field. -/
def regNibble (x : Reg) : BitVec 4 := BitVec.ofFin x

/-- Shape RI: group, x and kk (R82); shape R is the same with a fixed low byte. -/
def wordRI (op : BitVec 4) (x : Reg) (kk : Byte) : Word := (op ++ regNibble x) ++ kk

/-- Shapes RR and RRN: group, x, y and the low nibble (R82). -/
def wordRRN (op : BitVec 4) (x y : Reg) (n : BitVec 4) : Word :=
  ((op ++ regNibble x) ++ regNibble y) ++ n

/-- The word of an instruction (R85). For a DRW whose count is not well formed it keeps n mod 16; such
an instruction has no word. -/
def encodeWord : Instr → Word
  | .cls => 0x00E0
  | .ret => 0x00EE
  | .jp nnn => wordA 0x1 nnn
  | .call nnn => wordA 0x2 nnn
  | .seImm x kk => wordRI 0x3 x kk
  | .sneImm x kk => wordRI 0x4 x kk
  | .seReg x y => wordRRN 0x5 x y 0x0
  | .ldImm x kk => wordRI 0x6 x kk
  | .addImm x kk => wordRI 0x7 x kk
  | .ldReg x y => wordRRN 0x8 x y 0x0
  | .orReg x y => wordRRN 0x8 x y 0x1
  | .andReg x y => wordRRN 0x8 x y 0x2
  | .xorReg x y => wordRRN 0x8 x y 0x3
  | .addReg x y => wordRRN 0x8 x y 0x4
  | .subReg x y => wordRRN 0x8 x y 0x5
  | .shr x y => wordRRN 0x8 x y 0x6
  | .subnReg x y => wordRRN 0x8 x y 0x7
  | .shl x y => wordRRN 0x8 x y 0xE
  | .sneReg x y => wordRRN 0x9 x y 0x0
  | .ldI nnn => wordA 0xA nnn
  | .jpV0 nnn => wordA 0xB nnn
  | .rnd x kk => wordRI 0xC x kk
  | .drw x y n => wordRRN 0xD x y (BitVec.ofNat 4 n)
  | .skp x => wordRI 0xE x 0x9E
  | .sknp x => wordRI 0xE x 0xA1
  | .ldVxDt x => wordRI 0xF x 0x07
  | .ldVxK x => wordRI 0xF x 0x0A
  | .ldDtVx x => wordRI 0xF x 0x15
  | .ldStVx x => wordRI 0xF x 0x18
  | .addIVx x => wordRI 0xF x 0x1E
  | .ldFVx x => wordRI 0xF x 0x29
  | .ldBVx x => wordRI 0xF x 0x33
  | .storeRegs x => wordRI 0xF x 0x55
  | .loadRegs x => wordRI 0xF x 0x65

/-- The two bytes of an instruction, as they lie in memory: the high byte first (R57). -/
def encode (i : Instr) : List Byte := [hiByte (encodeWord i), loByte (encodeWord i)]

/-! ### The opcode map as data (R85) -/

/-- A row of R85: a word w matches it when `w & mask = value`. -/
structure OpcodeRow where
  mnemonic : String
  mask : Word
  value : Word
  deriving DecidableEq, Repr

/-- `(w & mask) = match` (R85). -/
def OpcodeRow.matchesWord (r : OpcodeRow) (w : Word) : Bool := decide (w &&& r.mask = r.value)

/-- Rows 1 to 19 of R85. -/
def opcodeMapLow : List OpcodeRow :=
  [⟨"CLS", 0xFFFF, 0x00E0⟩, ⟨"RET", 0xFFFF, 0x00EE⟩, ⟨"JP_addr", 0xF000, 0x1000⟩,
   ⟨"CALL_addr", 0xF000, 0x2000⟩, ⟨"SE_Vx__byte", 0xF000, 0x3000⟩,
   ⟨"SNE_Vx__byte", 0xF000, 0x4000⟩, ⟨"SE_Vx__Vy", 0xF00F, 0x5000⟩,
   ⟨"LD_Vx__byte", 0xF000, 0x6000⟩, ⟨"ADD_Vx__byte", 0xF000, 0x7000⟩,
   ⟨"LD_Vx__Vy", 0xF00F, 0x8000⟩, ⟨"OR_Vx__Vy", 0xF00F, 0x8001⟩,
   ⟨"AND_Vx__Vy", 0xF00F, 0x8002⟩, ⟨"XOR_Vx__Vy", 0xF00F, 0x8003⟩,
   ⟨"ADD_Vx__Vy", 0xF00F, 0x8004⟩, ⟨"SUB_Vx__Vy", 0xF00F, 0x8005⟩,
   ⟨"SHR_Vx__Vy", 0xF00F, 0x8006⟩, ⟨"SUBN_Vx__Vy", 0xF00F, 0x8007⟩,
   ⟨"SHL_Vx__Vy", 0xF00F, 0x800E⟩, ⟨"SNE_Vx__Vy", 0xF00F, 0x9000⟩]

/-- Rows 20 to 34 of R85. -/
def opcodeMapHigh : List OpcodeRow :=
  [⟨"LD_I__addr", 0xF000, 0xA000⟩, ⟨"JP_V0__addr", 0xF000, 0xB000⟩,
   ⟨"RND_Vx__byte", 0xF000, 0xC000⟩, ⟨"DRW_Vx__Vy__nibble", 0xF000, 0xD000⟩,
   ⟨"SKP_Vx", 0xF0FF, 0xE09E⟩, ⟨"SKNP_Vx", 0xF0FF, 0xE0A1⟩, ⟨"LD_Vx__DT", 0xF0FF, 0xF007⟩,
   ⟨"LD_Vx__K", 0xF0FF, 0xF00A⟩, ⟨"LD_DT__Vx", 0xF0FF, 0xF015⟩, ⟨"LD_ST__Vx", 0xF0FF, 0xF018⟩,
   ⟨"ADD_I__Vx", 0xF0FF, 0xF01E⟩, ⟨"LD_F__Vx", 0xF0FF, 0xF029⟩, ⟨"LD_B__Vx", 0xF0FF, 0xF033⟩,
   ⟨"LD__I___Vx", 0xF0FF, 0xF055⟩, ⟨"LD_Vx___I", 0xF0FF, 0xF065⟩]

/-- The opcode map of R85, one row per instruction, with the mnemonics of `opcode_table.json`. -/
def opcodeMap : List OpcodeRow := opcodeMapLow ++ opcodeMapHigh

/-- The mnemonic of an instruction's row in `opcode_table.json`. -/
def Instr.mnemonic : Instr → String
  | .cls => "CLS"
  | .ret => "RET"
  | .jp _ => "JP_addr"
  | .call _ => "CALL_addr"
  | .seImm _ _ => "SE_Vx__byte"
  | .sneImm _ _ => "SNE_Vx__byte"
  | .seReg _ _ => "SE_Vx__Vy"
  | .ldImm _ _ => "LD_Vx__byte"
  | .addImm _ _ => "ADD_Vx__byte"
  | .ldReg _ _ => "LD_Vx__Vy"
  | .orReg _ _ => "OR_Vx__Vy"
  | .andReg _ _ => "AND_Vx__Vy"
  | .xorReg _ _ => "XOR_Vx__Vy"
  | .addReg _ _ => "ADD_Vx__Vy"
  | .subReg _ _ => "SUB_Vx__Vy"
  | .shr _ _ => "SHR_Vx__Vy"
  | .subnReg _ _ => "SUBN_Vx__Vy"
  | .shl _ _ => "SHL_Vx__Vy"
  | .sneReg _ _ => "SNE_Vx__Vy"
  | .ldI _ => "LD_I__addr"
  | .jpV0 _ => "JP_V0__addr"
  | .rnd _ _ => "RND_Vx__byte"
  | .drw _ _ _ => "DRW_Vx__Vy__nibble"
  | .skp _ => "SKP_Vx"
  | .sknp _ => "SKNP_Vx"
  | .ldVxDt _ => "LD_Vx__DT"
  | .ldVxK _ => "LD_Vx__K"
  | .ldDtVx _ => "LD_DT__Vx"
  | .ldStVx _ => "LD_ST__Vx"
  | .addIVx _ => "ADD_I__Vx"
  | .ldFVx _ => "LD_F__Vx"
  | .ldBVx _ => "LD_B__Vx"
  | .storeRegs _ => "LD__I___Vx"
  | .loadRegs _ => "LD_Vx___I"

/-! ### The host's question about one table word -/

/-- The instruction the decoder reads from the word w of `nbits` bits, numbered as
`opcode_table.json` numbers it (bit 0 least significant): the word's two bytes, big-endian, are laid
out as memory holds them and given to `decode`. Bits above `nbits` are 0. -/
def decodeTableWord (nbits w : Nat) : Option Instr :=
  let ins : Word := BitVec.ofNat 16 (w % 2 ^ nbits)
  match decode [hiByte ins, loByte ins] with
  | .ok (i, _) => some i
  | .error _ => none

end Sys2Proof
end

