-- ==== Sys2Proof/Machine/Fetch.lean ====
section
/-! DEFINITION. Fetching an instruction (`30_encoding.md` R81), and laying one out in memory. -/
namespace Sys2Proof.Machine

/-- `Fetch(S, A)` with A = PC (R81): the bytes at A and A + 1 joined big-endian, or the first address
of the two above 0xFFF. -/
def fetch (s : State) : Except Nat Word :=
  match checkRange s.pc.toNat Config.insnBytes with
  | none => .ok (joinBytes (s.readByte s.pc.toNat) (s.readByte (s.pc.toNat + 1)))
  | some bad => .error bad

/-- The state with a word's two bytes at PC and PC + 1, where those addresses exist (R57). -/
def State.placeWord (s : State) (w : Word) : State :=
  match checkRange s.pc.toNat Config.insnBytes with
  | none => s.storeBytes s.pc.toNat [hiByte w, loByte w]
  | some _ => s

end Sys2Proof.Machine
end

