-- ==== Sys2Proof/Machine/Outputs.lean ====
section
/-! DEFINITION. What the core shows the host besides faults (`10_state.md` R40, R41): the outcome of a
step, the tone, and the display. None of it is stored (R38; log 4). -/
namespace Sys2Proof.Machine

/-- `draw_needed`: the step executed 00E0 or Dxyn (R155; D8). -/
def drawNeeded : Instr → Bool
  | .cls | .drw _ _ _ => true
  | .ret | .jp _ | .call _ | .seImm _ _ | .sneImm _ _ | .seReg _ _ | .ldImm _ _ | .addImm _ _
  | .ldReg _ _ | .orReg _ _ | .andReg _ _ | .xorReg _ _ | .addReg _ _ | .subReg _ _ | .shr _ _
  | .subnReg _ _ | .shl _ _ | .sneReg _ _ | .ldI _ | .jpV0 _ | .rnd _ _ | .skp _ | .sknp _
  | .ldVxDt _ | .ldVxK _ | .ldDtVx _ | .ldStVx _ | .addIVx _ | .ldFVx _ | .ldBVx _
  | .storeRegs _ | .loadRegs _ => false

/-- `sound_active`, between operations: ST ≠ 0 (R161). -/
def soundActive (s : State) : Bool := s.st != 0

/-- The outcome of a step that executed `i` and left the state `t` before its tick (R41, R80, R161). -/
def stepOutcome (i : Instr) (t : State) : StepOutcome :=
  { drawNeeded := drawNeeded i, soundRequested := t.st != 0 }

/-- The linear index of a pixel, `x + 64·y` (R33, R152). -/
def linearIndex (p : Pixel) : Nat := p.1.val + Config.dispW * p.2.val

/-- `display_snapshot()`: the 2048 pixels in row-major order (R156). -/
def displaySnapshot (s : State) : List Bool :=
  (List.range (Config.dispW * Config.dispH)).map fun k =>
    Display.pixel s.disp (wrapPixel k (k / Config.dispW))

/-- What a successful execution commits (R80): the tick, and the outcome taken before it. -/
def commit (i : Instr) (t : State) : State × StepOutcome := (t.tick, stepOutcome i t)

end Sys2Proof.Machine
end

