-- ==== Sys2Proof/Machine/Step.lean ====
section
/-! DEFINITION. `step()` (`30_encoding.md` R80): fetch, decode, execute, tick, commit. -/
namespace Sys2Proof.Machine

/-- One step and what it returns to the host (R80). A step before a program is loaded is refused
(`10_state.md` R46). A fault carries the record of R171 and no state: nothing is committed (R173;
log 6). -/
def stepWithOutcome (s : State) : Host.Outcome (State × StepOutcome) Fault Refusal :=
  match s.phase with
  | .init => .refused .notLoaded
  | .loaded =>
    match fetch s with
    | .error bad => .fault (.addressError s.pc bad)
    | .ok w =>
      match decodeWord w with
      | .error _ => .fault (.decodeError s.pc w)
      | .ok i =>
        match exec i s.advance with
        | .next t => .next (commit i t)
        | .fault f => .fault f
        | .refused r => .refused r

/-- One step, its outcome left aside. -/
def step (s : State) : Host.Outcome State Fault Refusal :=
  match stepWithOutcome s with
  | .next (t, _) => .next t
  | .fault f => .fault f
  | .refused r => .refused r

/-- The state in which the next step fetches and runs the word w: its two bytes stand at PC and PC + 1
and a program counts as loaded (log 3). -/
def State.withFetchWord (s : State) (nbits w : Nat) : State :=
  { s.placeWord (BitVec.ofNat 16 (w % 2 ^ nbits)) with phase := .loaded }

end Sys2Proof.Machine
end

