-- ==== Sys2Proof/Machine/HostOps.lean ====
section
/-! DEFINITION. The host's operations (`10_state.md` R40): each is one atomic transition (R60). -/
namespace Sys2Proof.Machine

/-- `initialize()` (R190), allowed from any state (R191; D28). The parameters are not the core's: the
font stays this machine's, and the random source stands where it stood (log 8). -/
def initializeCore (s : State) : State := State.initial s.fontRom s.rngQueue s.rngCount

/-- `load_program(bytes)` (R192, R193, R46): refused unless Phase is Init; SizeError above 3584
bytes; else the image goes to 0x200 upward and Phase becomes Loaded. -/
def loadProgram (bytes : List Byte) (s : State) : Result :=
  match s.phase with
  | .loaded => .refused .alreadyLoaded
  | .init =>
    if bytes.length > Config.progMax then .fault (.sizeError bytes.length)
    else .next { s.storeBytes Config.progBase bytes with phase := .loaded }

/-- `skip()` (R180, R46; D4): PC + 2 and a tick; refused unless Phase is Loaded. -/
def skip (s : State) : Result :=
  match s.phase with
  | .init => .refused .notLoaded
  | .loaded => .next s.advance.tick

/-- `set_key(index, pressed)` (R166, R46): refused outside 0..15. -/
def setKey (index : Nat) (pressed : Bool) (s : State) : Result :=
  if h : index < Config.numKeys then .next { s with key := s.key.set index pressed }
  else .refused (.keyOutOfRange index)

/-- The host injects one more random byte (R133: "inject the random source as a
parameter/capability"; the input r of R40; log 2). -/
def offerRandom (r : Byte) (s : State) : State := { s with rngQueue := s.rngQueue ++ [r] }

/-- The operations of R40 that are transitions, and the injection of a random byte. -/
inductive HostOp where
  | initializeCore
  | loadProgram (bytes : List Byte)
  | step
  | skip
  | setKey (index : Nat) (pressed : Bool)
  | offerRandom (r : Byte)
  deriving DecidableEq, Repr

/-- What an operation answers. -/
def runHostOp : HostOp → State → Result
  | .initializeCore, s => .next (initializeCore s)
  | .loadProgram bytes, s => loadProgram bytes s
  | .step, s => Sys2Proof.Machine.step s
  | .skip, s => skip s
  | .setKey index pressed, s => setKey index pressed s
  | .offerRandom r, s => .next (offerRandom r s)

/-- The state the core is in after an operation: a fault or a refusal changes nothing (R46, R173,
R177). -/
def stateAfter (op : HostOp) (s : State) : State :=
  match runHostOp op s with
  | .next t => t
  | .fault _ => s
  | .refused _ => s

/-- The state after a sequence of operations (R199: "A run is a sequence of host operations"). -/
def stateAfterAll : List HostOp → State → State
  | [], s => s
  | op :: ops, s => stateAfterAll ops (stateAfter op s)

end Sys2Proof.Machine
end

