-- ==== Sys2Proof/Safety.lean ====
section
/-! DEFINITION. What claims are stated in: the invariant of the machine, what an instruction leaves
unchanged, runs of steps, and the end conditions of `70_reset_and_hazards.md` R199 to R201. -/
namespace Sys2Proof.Machine

/-! ### The invariant -/

/-- Memory is in its canonical form (log 7). -/
abbrev State.memWf (s : State) : Prop := Memory.wf s.fontRom s.mem

/-- PC is at most 0x10FE (R24, R58). -/
abbrev State.pcBounded (s : State) : Prop := s.pc.toNat ≤ 0x10FE

/-- Every occupied stack slot holds at most 0x1000, the largest return address a 2nnn pushes (R101). -/
abbrev State.stackBounded (s : State) : Prop :=
  ∀ j : Fin Config.stackDepth, j.val < s.sp.val → (s.stack[j.val]).toNat ≤ 0x1000

/-- What every step keeps. -/
abbrev State.Inv (s : State) : Prop := s.memWf ∧ s.pcBounded ∧ s.stackBounded

/-! ### Frames -/

/-- What an instruction may write; everything it does not name stays unchanged (`Frame`). -/
structure Writes where
  /-- Destination registers. -/
  regs : List Reg := []
  /-- I. -/
  index : Bool := false
  /-- PC, beyond the advance of the fetch. -/
  pc : Bool := false
  /-- The stack slots and SP. -/
  stack : Bool := false
  /-- DT, by the instruction itself. -/
  dt : Bool := false
  /-- ST, by the instruction itself. -/
  st : Bool := false
  /-- The display. -/
  disp : Bool := false
  /-- The random source. -/
  random : Bool := false
  /-- The stored bytes: `memLen` bytes from `memStart`. -/
  memStart : Nat := 0
  memLen : Nat := 0

/-- From s to t only what `w` names has changed; memory is compared through the read of one byte. -/
structure Frame (w : Writes) (s t : State) : Prop where
  regs : ∀ r, r ∉ w.regs → t.getV r = s.getV r
  index : w.index = false → t.i = s.i
  pc : w.pc = false → t.pc = s.pc
  stack : w.stack = false → t.stack = s.stack ∧ t.sp = s.sp
  dt : w.dt = false → t.dt = s.dt
  st : w.st = false → t.st = s.st
  disp : w.disp = false → t.disp = s.disp
  random : w.random = false → t.rngQueue = s.rngQueue ∧ t.rngCount = s.rngCount
  memory : ∀ a, ¬ (w.memStart ≤ a ∧ a < w.memStart + w.memLen) → t.readByte a = s.readByte a
  latch : t.key = s.key
  phase : t.phase = s.phase
  font : t.fontRom = s.fontRom

/-- What each instruction may write beyond the fetch's advance of PC and the step's tick
(`10_state.md` R22, R23, R25, R28, R33; `20_memory.md` R56; `45_timers_input.md` R168). -/
def writesOf (s : State) : Instr → Writes
  | .cls => { disp := true }
  | .ret | .call _ => { pc := true, stack := true }
  | .jp _ | .jpV0 _ => { pc := true }
  | .seImm _ _ | .sneImm _ _ | .seReg _ _ | .sneReg _ _ | .skp _ | .sknp _ => { pc := true }
  | .ldImm x _ | .addImm x _ | .ldReg x _ | .orReg x _ | .andReg x _ | .xorReg x _ => { regs := [x] }
  | .addReg x _ | .subReg x _ | .shr x _ | .subnReg x _ | .shl x _ => { regs := [x, vF] }
  | .ldI _ | .addIVx _ | .ldFVx _ => { index := true }
  | .rnd x _ => { regs := [x], random := true }
  | .drw _ _ _ => { regs := [vF], disp := true }
  | .ldVxDt x => { regs := [x] }
  | .ldVxK x => { regs := [x], pc := true }
  | .ldDtVx _ => { dt := true }
  | .ldStVx _ => { st := true }
  | .ldBVx _ => { memStart := indexAddress s 0, memLen := 3 }
  | .storeRegs x => { memStart := indexAddress s 0, memLen := x.val + 1 }
  | .loadRegs x => { regs := (List.finRange 16).filter fun r => r.val ≤ x.val }

/-! ### PC at commit (R25) -/

/-- A + 4 if the condition holds, else A + 2 (R25, R110). -/
def skipTarget (a : Word) (cond : Prop) [Decidable cond] : Word := if cond then a + 4 else a + 2

/-- The table of R25: PC at the commit of a step that executes i from the state s, so that A is the PC
of s. -/
def commitPc (s : State) : Instr → Word
  | .jp nnn | .call nnn => zext16 nnn
  | .ret => s.stack[s.sp.val - 1]?.getD 0
  | .jpV0 nnn => zext16 nnn + zext16 (s.getV 0)
  | .seImm x kk => skipTarget s.pc (s.getV x = kk)
  | .sneImm x kk => skipTarget s.pc (s.getV x ≠ kk)
  | .seReg x y => skipTarget s.pc (s.getV x = s.getV y)
  | .sneReg x y => skipTarget s.pc (s.getV x ≠ s.getV y)
  | .skp x => skipTarget s.pc (s.key[(s.getV x).toNat]? = some true)
  | .sknp x => skipTarget s.pc (s.key[(s.getV x).toNat]? = some false)
  | .ldVxK _ => if ∃ k : Fin Config.numKeys, s.key[k.val] = true then s.pc + 2 else s.pc
  | .cls | .ldImm _ _ | .addImm _ _ | .ldReg _ _ | .orReg _ _ | .andReg _ _ | .xorReg _ _
  | .addReg _ _ | .subReg _ _ | .shr _ _ | .subnReg _ _ | .shl _ _ | .ldI _ | .rnd _ _
  | .drw _ _ _ | .ldVxDt _ | .ldDtVx _ | .ldStVx _ | .addIVx _ | .ldFVx _ | .ldBVx _
  | .storeRegs _ | .loadRegs _ => s.pc + 2

/-! ### Faults -/

/-- An operation faults with this kind and this recorded info (R170, R171). -/
def FaultsWith {σ : Type} (o : Host.Outcome σ Fault Refusal) (kind : FaultKind) (info : Nat) : Prop :=
  ∃ f, o = .fault f ∧ f.record.kind = kind ∧ f.record.info = info

/-! ### Instructions in memory -/

/-- The instruction word w stands at the program counter of a loaded core: both its bytes exist and
are read there (R57, R81). -/
def State.fetches (s : State) (w : Word) : Prop :=
  s.phase = .loaded ∧ s.pc.toNat + 1 < Config.memSize ∧
    s.readByte s.pc.toNat = hiByte w ∧ s.readByte (s.pc.toNat + 1) = loByte w

/-- The next step executes the instruction i (R80). -/
def State.executes (s : State) (i : Instr) : Prop :=
  ∃ w, s.fetches w ∧ decodeWord w = .ok i

/-! ### Runs (R199 to R201) -/

/-- n steps, stopping at the first fault or refusal. -/
def runSteps (n : Nat) (s : State) : Result := Sys2Proof.core.run n s

/-- n steps with no fault and no refusal (R201: "no fault returned"). -/
def runsWell (n : Nat) (s t : State) : Prop := runSteps n s = .next t

/-- The self-jump of R200: the next instruction is 1nnn with nnn its own address. -/
def State.atSelfJump (s : State) : Prop :=
  ∃ nnn : Addr, s.executes (.jp nnn) ∧ addrOperand nnn = s.pc

/-- A counter after n ticks (R160): it never falls below 0. -/
def countDownBy (n : Nat) (b : Byte) : Byte := BitVec.ofNat 8 (b.toNat - n)

end Sys2Proof.Machine
end

