-- ==== Sys2Proof/Certificates/Slice0/Obligations.lean ====
section
/-! DEFINITION. The statements for the provers. `exec i s` is the execution of i in the state s whose PC
is already A + 2 (`30_encoding.md` R80); `step` adds fetch, decode, the advance and the tick. "D<n>" in a
docstring names a decision of `spec/92_eei_decisions.md`, which the spec marks as its own choice (log 11). -/

open Sys2Proof Sys2Proof.Machine

/-! ### Encoding -/

/-- Words written out bit by bit from the encodings of R85, at least one for each family and each operand
shape, decode to the instruction they stand for, and four illegal words of R84, R87 are rejected. -/
def Obligations.SampleWordsDecode : Prop :=
  decodeWord 0b0000000011100000 = .ok .cls ∧
  decodeWord 0b0000000011101110 = .ok .ret ∧
  decodeWord 0b0010001100000100 = .ok (.call 0x304) ∧
  decodeWord 0b0011001101000010 = .ok (.seImm 3 0x42) ∧
  decodeWord 0b1001000100100000 = .ok (.sneReg 1 2) ∧
  decodeWord 0b1000111100010111 = .ok (.subnReg 15 1) ∧
  decodeWord 0b1100001100001111 = .ok (.rnd 3 0x0F) ∧
  decodeWord 0b1010001011110000 = .ok (.ldI 0x2F0) ∧
  decodeWord 0b1101000100100101 = .ok (.drw 1 2 5) ∧
  decodeWord 0b1110010110011110 = .ok (.skp 5) ∧
  decodeWord 0b1111010000001010 = .ok (.ldVxK 4) ∧
  decodeWord 0b1111001001010101 = .ok (.storeRegs 2) ∧
  decodeWord 0x00FF = .error (.illegal 0x00FF) ∧
  decodeWord 0x0123 = .error (.illegal 0x0123) ∧
  decodeWord 0x5121 = .error (.illegal 0x5121) ∧
  decodeWord 0xF0FF = .error (.illegal 0xF0FF)

/-- Decoding what the encoder lays out gives the instruction back, whatever follows it, for every
well-formed instruction of every family (R83, R85, R89). -/
def Obligations.DecodeOfEncode : Prop :=
  ∀ i : Instr, i.wellFormed = true →
    decodeWord (encodeWord i) = .ok i ∧ ∀ rest, decode (encode i ++ rest) = .ok (i, rest)

/-- Every legal word has one meaning: what a word decodes to is well formed and encodes to that word
(R85, R86). That no bit is dropped rests on D5 (strict decoding: every constant bit of rows 1, 2, 7 and 19
must match). -/
def Obligations.EncodeOfDecode : Prop :=
  ∀ (w : Word) (i : Instr), decodeWord w = .ok i → i.wellFormed = true ∧ encodeWord i = w

/-- The decoder is the opcode map of R85: a word decodes to an instruction of a row exactly when
`(w & mask) = match` for that row, and no two rows match the same word. The masks of rows 1, 2, 7 and 19
rest on D5 (strict decoding). -/
def Obligations.DecoderIsTheOpcodeMap : Prop :=
  (∀ w : Word, ∀ r ∈ opcodeMap,
    r.matchesWord w = true ↔ ∃ i, decodeWord w = .ok i ∧ i.mnemonic = r.mnemonic) ∧
  (∀ w : Word, opcodeMap.Pairwise fun r r' => ¬ (r.matchesWord w = true ∧ r'.matchesWord w = true))

/-- The illegal words are exactly those that match no row, and the step that fetches one raises
DecodeError with the raw word (R87; strictness by D5). -/
def Obligations.IllegalWordsRaiseDecodeError : Prop :=
  ∀ w : Word, (∀ r ∈ opcodeMap, r.matchesWord w = false) ↔
    (decodeWord w = .error (.illegal w) ∧
      ∀ s : State, s.fetches w → FaultsWith (step s) .decodeError w.toNat)

/-- A word placed where the core fetches runs as the next instruction: the loader of the host's questions
(log 3) places exactly what the decoder reads. -/
def Obligations.PlacedWordIsExecuted : Prop :=
  ∀ (s : State) (w : Word) (i : Instr), s.memWf → s.pc.toNat + 1 < 4096 → decodeWord w = .ok i →
    (s.withFetchWord 16 w.toNat).executes i ∧ decodeTableWord 16 w.toNat = some i

/-! ### The step -/

/-- A step runs the decoded instruction (R80): PC is advanced by 2 before execution, a successful
execution is followed by one tick of both timers, and the outcome is taken before the tick; a fault of the
execution is the fault of the step. Where `draw_needed` and `sound_requested` stand is D8 and D9. -/
def Obligations.StepRunsTheDecodedInstruction : Prop :=
  ∀ (s : State) (i : Instr), s.executes i →
    (∀ t, exec i (s.setPc (s.pc + 2)) = .next t →
      step s = .next t.tick ∧
      stepWithOutcome s = .next (t.tick, { drawNeeded := drawNeeded i, soundRequested := t.st != 0 })) ∧
    (∀ f, exec i (s.setPc (s.pc + 2)) = .fault f → step s = .fault f ∧ stepWithOutcome s = .fault f)

/-- Fetch reads PC and PC + 1 big-endian; PC = 0xFFF raises AddressError(0x1000), and PC ≥ 0x1000 raises
AddressError(PC) (R81). -/
def Obligations.FetchIsBigEndianAndChecked : Prop :=
  ∀ s : State, s.phase = .loaded →
    (s.pc.toNat < 0xFFF → ∃ w, fetch s = .ok w ∧
      w.toNat = 256 * (s.readByte s.pc.toNat).toNat + (s.readByte (s.pc.toNat + 1)).toNat) ∧
    (s.pc.toNat = 0xFFF → FaultsWith (step s) .addressError 0x1000) ∧
    (0x1000 ≤ s.pc.toNat → FaultsWith (step s) .addressError s.pc.toNat)

/-- Operations out of phase and keys out of range are refused and change nothing (R46; D18, D21). -/
def Obligations.OutOfProtocolIsRefused : Prop :=
  ∀ s : State,
    (s.phase = .init → step s = .refused .notLoaded ∧ skip s = .refused .notLoaded ∧
      stateAfter .step s = s ∧ stateAfter .skip s = s) ∧
    (s.phase = .loaded → ∀ bytes, loadProgram bytes s = .refused .alreadyLoaded ∧
      stateAfter (.loadProgram bytes) s = s) ∧
    (∀ index pressed, 16 ≤ index → setKey index pressed s = .refused (.keyOutOfRange index) ∧
      stateAfter (.setKey index pressed) s = s)

/-- A faulting step reports the address it fetched from, never SizeError, and leaves the state unchanged,
so a second attempt reports the same (R171, R173, R177; the pc field is D15, precision D3). -/
def Obligations.StepFaultIsPrecise : Prop :=
  ∀ (s : State) (f : Fault), step s = .fault f →
    f.record.pc = some s.pc ∧ f.record.kind ≠ .sizeError ∧ stateAfter .step s = s ∧
      step (stateAfter .step s) = .fault f

/-- The faults an execution can raise, by instruction, and no execution is refused (R172). -/
def Obligations.ExecutionFaultsByInstruction : Prop :=
  ∀ (i : Instr) (s : State),
    (∀ f, exec i s = .fault f →
      (i = .ret ∧ f.kind = .stackUnderflow ∧ s.sp.val = 0) ∨
      (∃ nnn, i = .call nnn ∧ f.kind = .stackOverflow ∧ s.sp.val = 16) ∨
      (∃ x y n, i = .drw x y n ∧ 1 ≤ n ∧ f.kind = .addressError) ∨
      (∃ x, (i = .ldBVx x ∨ i = .storeRegs x ∨ i = .loadRegs x) ∧ f.kind = .addressError) ∨
      (∃ x, (i = .skp x ∨ i = .sknp x) ∧ f.kind = .keyIndexError ∧ 15 < (s.getV x).toNat)) ∧
    (∀ r, exec i s ≠ .refused r)

/-- No fault depends on the latch or on the random draw, so a retry raises the same fault whatever keys
and random bytes the host has set in between (R178). -/
def Obligations.FaultsIgnoreLatchAndDraws : Prop :=
  ∀ (s : State) (f : Fault), step s = .fault f →
    ∀ (key : Vector Bool 16) (queue : List Byte) (count : Nat),
      step { s with key := key, rngQueue := queue, rngCount := count } = .fault f

/-- What each instruction leaves unchanged, for all 34 at once: it writes at most what `writesOf` names;
every other register, I, PC, the stack and SP, the timers, the display, every byte of memory outside the
stored ones, the latch, the phase, the font and the random source are as before. -/
def Obligations.EveryInstructionKeepsItsFrame : Prop :=
  ∀ (i : Instr) (s t : State), s.memWf → exec i s = .next t → Frame (writesOf s i) s t

/-- PC at the commit of every successful step is the table of R25. -/
def Obligations.PcAtCommit : Prop :=
  ∀ s t : State, step s = .next t → ∃ i, s.executes i ∧ t.pc = commitPc s i

/-- Both timers count down once per successful step, after the instruction, saturating at 0; only Fx15
and Fx18 write them (R160, R168; one tick per step is D22). -/
def Obligations.TimersTickOncePerStep : Prop :=
  ∀ s t : State, step s = .next t → ∃ i, s.executes i ∧
    (∀ x, i = .ldDtVx x → t.dt.toNat = (s.getV x).toNat - 1) ∧
    ((∀ x, i ≠ .ldDtVx x) → t.dt.toNat = s.dt.toNat - 1) ∧
    (∀ x, i = .ldStVx x → t.st.toNat = (s.getV x).toNat - 1) ∧
    ((∀ x, i ≠ .ldStVx x) → t.st.toNat = s.st.toNat - 1)

/-- The outcome of a step: `draw_needed` exactly for 00E0 and Dxyn; `sound_requested` exactly when ST is
not 0 before the tick, as the instruction left it; and `sound_active` afterwards when ST is still not 0
(R155, R161; D8, D9). -/
def Obligations.StepOutcomeFlags : Prop :=
  ∀ (s t : State) (o : StepOutcome), stepWithOutcome s = .next (t, o) → ∃ i, s.executes i ∧
    (o.drawNeeded = true ↔ i = .cls ∨ ∃ x y n, i = .drw x y n) ∧
    (∀ x, i = .ldStVx x → (o.soundRequested = true ↔ s.getV x ≠ 0)) ∧
    ((∀ x, i ≠ .ldStVx x) → (o.soundRequested = true ↔ s.st ≠ 0)) ∧
    (soundActive t = true ↔ t.st ≠ 0)

/-! ### Invariants -/

/-- Every step keeps the invariant: memory in its canonical form, PC at most 0x10FE, and every occupied
stack slot at most 0x1000 (R24, R58, R101). -/
def Obligations.StepKeepsInvariant : Prop :=
  ∀ s t : State, s.Inv → step s = .next t → t.Inv

/-- The invariant holds after `initialize()`, for every font and every random source, and at reset. -/
def Obligations.ResetMeetsInvariant : Prop :=
  (∀ font queue count, (State.initial font queue count).Inv) ∧ State.reset.Inv

/-- No run of steps carries PC past 0x10FE, from any state that meets the invariant and through any
memory contents (R24, R58). -/
def Obligations.NoRunCarriesPcPast10FE : Prop :=
  ∀ (n : Nat) (s t : State), s.Inv → runSteps n s = .next t → t.pc.toNat ≤ 0x10FE ∧ t.Inv

/-- Every sequence of host operations keeps memory in its canonical form and leaves the font parameter
alone. -/
def Obligations.HostOperationsKeepMemoryCanonical : Prop :=
  ∀ (ops : List HostOp) (s : State), s.memWf →
    (stateAfterAll ops s).memWf ∧ (stateAfterAll ops s).fontRom = s.fontRom

/-- The only writers of memory are `initialize()`, `load_program` (from 0x200 upward) and the stores of
Fx33 and Fx55 at I upward (R65). -/
def Obligations.OnlyStoresAndLoadsWriteMemory : Prop :=
  ∀ (op : HostOp) (s : State) (a : Nat), s.memWf →
    (stateAfter op s).readByte a ≠ s.readByte a →
      op = .initializeCore ∨
      (∃ bytes, op = .loadProgram bytes ∧ 0x200 ≤ a ∧ a < 0x200 + bytes.length) ∨
      (op = .step ∧ ∃ x,
        (s.executes (.ldBVx x) ∧ indexAddress s 0 ≤ a ∧ a < indexAddress s 0 + 3) ∨
        (s.executes (.storeRegs x) ∧ indexAddress s 0 ≤ a ∧ a < indexAddress s 0 + (x.val + 1)))

/-! ### Reset, load and the host's operations -/

/-- `initialize()` gives every component its value of R39, from any state, for every font; PC = 0x0200 is
D2 and Phase D18. -/
def Obligations.InitializeGivesResetValues : Prop :=
  ∀ s : State,
    runHostOp .initializeCore s = .next (initializeCore s) ∧
    (∀ r, (initializeCore s).getV r = 0) ∧ (initializeCore s).i = 0 ∧
    (initializeCore s).pc = 0x0200 ∧ (initializeCore s).sp.val = 0 ∧
    (∀ j : Fin 16, (initializeCore s).stack[j.val] = 0) ∧
    (initializeCore s).dt = 0 ∧ (initializeCore s).st = 0 ∧
    (∀ p, Display.pixel (initializeCore s).disp p = false) ∧
    (∀ k : Fin 16, (initializeCore s).key[k.val] = false) ∧
    (initializeCore s).phase = .init ∧
    (∀ a (h : a < 80), (initializeCore s).readByte a = s.fontRom[a]) ∧
    (∀ a, 80 ≤ a → (initializeCore s).readByte a = 0)

/-- `load_program` of at most 3584 bytes puts them at 0x200 upward, changes nothing else but the phase,
and lets the core step (R192; Phase is D18, the empty image D27). -/
def Obligations.LoadProgramPlacesTheImage : Prop :=
  ∀ (s : State) (bytes : List Byte), s.memWf → s.phase = .init → bytes.length ≤ 3584 →
    ∃ t, loadProgram bytes s = .next t ∧ t.phase = .loaded ∧
      (∀ k (h : k < bytes.length), t.readByte (0x200 + k) = bytes[k]) ∧
      Frame { memStart := 0x200, memLen := bytes.length } { s with phase := .loaded } t

/-- `load_program` of more than 3584 bytes fails with SizeError and changes nothing, and one of exactly
3584 bytes succeeds (R193; Phase staying Init is D18). -/
def Obligations.OversizeLoadIsSizeError : Prop :=
  ∀ (s : State) (bytes : List Byte), s.phase = .init →
    (3584 < bytes.length → FaultsWith (loadProgram bytes s) .sizeError bytes.length ∧
      stateAfter (.loadProgram bytes) s = s) ∧
    (bytes.length = 3584 → ∃ t, loadProgram bytes s = .next t)

/-- `skip()` adds 2 to PC modulo 65536 and ticks the timers, and does nothing else (R180; D4). -/
def Obligations.SkipPassesOverAndTicks : Prop :=
  ∀ s : State, s.phase = .loaded → ∃ t, skip s = .next t ∧
    t.pc.toNat = (s.pc.toNat + 2) % 65536 ∧
    t.dt.toNat = s.dt.toNat - 1 ∧ t.st.toNat = s.st.toNat - 1 ∧
    Frame { pc := true, dt := true, st := true } s t

/-- `set_key` writes one element of the latch and nothing else (R166; the port is D21). -/
def Obligations.SetKeyWritesOneKey : Prop :=
  ∀ (s : State) (index : Fin 16) (pressed : Bool), ∃ t, setKey index.val pressed s = .next t ∧
    (∀ k : Fin 16, t.key[k.val] = if k = index then pressed else s.key[k.val]) ∧
    { t with key := s.key } = s

/-- `display_snapshot()` gives the 2048 pixels in row-major order, pixel (x, y) at index x + 64·y
(R156). -/
def Obligations.SnapshotIsRowMajor : Prop :=
  ∀ s : State, (displaySnapshot s).length = 2048 ∧
    ∀ p : Pixel, (displaySnapshot s)[p.1.val + 64 * p.2.val]? = some (Display.pixel s.disp p)

/-! ### Control transfer -/

/-- 1nnn jumps to nnn and Bnnn to nnn + V0, without wrap, and nothing else changes (R102, R104). -/
def Obligations.JumpsSetPc : Prop :=
  ∀ (nnn : Addr) (s : State),
    (∃ t, exec (.jp nnn) s = .next t ∧ t.pc.toNat = nnn.toNat ∧ Frame { pc := true } s t) ∧
    (∃ t, exec (.jpV0 nnn) s = .next t ∧ t.pc.toNat = nnn.toNat + (s.getV 0).toNat ∧
      Frame { pc := true } s t)

/-- 2nnn pushes the post-fetch PC into slot SP, increments SP and jumps; with SP = 16 it raises
StackOverflow (R30, R103; the slot is D20). -/
def Obligations.CallPushesAndJumps : Prop :=
  ∀ (nnn : Addr) (s : State),
    (s.sp.val < 16 → ∃ t, exec (.call nnn) s = .next t ∧ t.pc.toNat = nnn.toNat ∧
      t.sp.val = s.sp.val + 1 ∧
      (∀ j : Fin 16, t.stack[j.val] = if j.val = s.sp.val then s.pc else s.stack[j.val]) ∧
      Frame { pc := true, stack := true } s t) ∧
    (s.sp.val = 16 → FaultsWith (exec (.call nnn) s) .stackOverflow 16)

/-- 00EE decrements SP and returns to the slot it then names, which keeps its value; with SP = 0 it
raises StackUnderflow (R31, R101; the slot is D20). -/
def Obligations.ReturnPops : Prop :=
  ∀ s : State,
    (∀ n (h : n < 16), s.sp.val = n + 1 → ∃ t, exec .ret s = .next t ∧ t.pc = s.stack[n] ∧
      t.sp.val = n ∧ t.stack = s.stack ∧ Frame { pc := true, stack := true } s t) ∧
    (s.sp.val = 0 → FaultsWith (exec .ret s) .stackUnderflow 0)

/-- Call and return balance: executing 2nnn at address A and then the 00EE at nnn leaves PC = A + 2 and SP
unchanged from before the call (the testable property of R103). -/
def Obligations.CallThenReturnBalances : Prop :=
  ∀ (s : State) (nnn : Addr), s.executes (.call nnn) → s.sp.val < 16 → nnn.toNat < 0xFFF →
    s.readByte nnn.toNat = 0x00 → s.readByte (nnn.toNat + 1) = 0xEE →
    ∃ t u, step s = .next t ∧ step t = .next u ∧ u.pc = s.pc + 2 ∧ u.sp = s.sp

/-! ### Skips -/

/-- 3xkk, 4xkk, 5xy0 and 9xy0 add 2 to PC when their condition holds, and change nothing else
(R111 to R114). -/
def Obligations.ComparisonsSkip : Prop :=
  ∀ (x y : Reg) (kk : Byte) (s : State),
    (∃ t, exec (.seImm x kk) s = .next t ∧
      t.pc = (if s.getV x = kk then s.pc + 2 else s.pc) ∧ Frame { pc := true } s t) ∧
    (∃ t, exec (.sneImm x kk) s = .next t ∧
      t.pc = (if s.getV x ≠ kk then s.pc + 2 else s.pc) ∧ Frame { pc := true } s t) ∧
    (∃ t, exec (.seReg x y) s = .next t ∧
      t.pc = (if s.getV x = s.getV y then s.pc + 2 else s.pc) ∧ Frame { pc := true } s t) ∧
    (∃ t, exec (.sneReg x y) s = .next t ∧
      t.pc = (if s.getV x ≠ s.getV y then s.pc + 2 else s.pc) ∧ Frame { pc := true } s t)

/-- Ex9E skips when key V[x] is pressed and ExA1 when it is not; V[x] > 15 raises KeyIndexError(V[x])
(R115, R116; the fault is D11). -/
def Obligations.KeysSkip : Prop :=
  ∀ (x : Reg) (s : State),
    (∀ k : Fin 16, (s.getV x).toNat = k.val →
      (∃ t, exec (.skp x) s = .next t ∧
        t.pc = (if s.key[k.val] = true then s.pc + 2 else s.pc) ∧ Frame { pc := true } s t) ∧
      (∃ t, exec (.sknp x) s = .next t ∧
        t.pc = (if s.key[k.val] = false then s.pc + 2 else s.pc) ∧ Frame { pc := true } s t)) ∧
    (15 < (s.getV x).toNat →
      FaultsWith (exec (.skp x) s) .keyIndexError (s.getV x).toNat ∧
      FaultsWith (exec (.sknp x) s) .keyIndexError (s.getV x).toNat)

/-! ### Registers and arithmetic -/

/-- 6xkk and 8xy0 load a register and change nothing else, VF included unless it is the destination
(R121, R123). -/
def Obligations.LoadsSetOneRegister : Prop :=
  ∀ (x y : Reg) (kk : Byte) (s : State),
    (∃ t, exec (.ldImm x kk) s = .next t ∧ t.getV x = kk ∧ Frame { regs := [x] } s t) ∧
    (∃ t, exec (.ldReg x y) s = .next t ∧ t.getV x = s.getV y ∧ Frame { regs := [x] } s t)

/-- 7xkk adds modulo 256 and writes no flag (R122). -/
def Obligations.AddImmediateWraps : Prop :=
  ∀ (x : Reg) (kk : Byte) (s : State), ∃ t, exec (.addImm x kk) s = .next t ∧
    (t.getV x).toNat = ((s.getV x).toNat + kk.toNat) % 256 ∧ Frame { regs := [x] } s t

/-- 8xy1, 8xy2 and 8xy3 are bitwise OR, AND and XOR, bit by bit, and write no flag (R124 to R126). -/
def Obligations.LogicIsBitwise : Prop :=
  ∀ (x y : Reg) (s : State),
    (∃ t, exec (.orReg x y) s = .next t ∧
      (∀ b, (t.getV x).getLsbD b = ((s.getV x).getLsbD b || (s.getV y).getLsbD b)) ∧
      Frame { regs := [x] } s t) ∧
    (∃ t, exec (.andReg x y) s = .next t ∧
      (∀ b, (t.getV x).getLsbD b = ((s.getV x).getLsbD b && (s.getV y).getLsbD b)) ∧
      Frame { regs := [x] } s t) ∧
    (∃ t, exec (.xorReg x y) s = .next t ∧
      (∀ b, (t.getV x).getLsbD b = ((s.getV x).getLsbD b ^^ (s.getV y).getLsbD b)) ∧
      Frame { regs := [x] } s t)

/-- 8xy4: VF is the carry and V[x] the sum modulo 256. With x = F the sum replaces the carry, and with
y = F the carry is what is added (R127; that order is D6). -/
def Obligations.AddSetsCarry : Prop :=
  ∀ (x y : Reg) (s : State), ∃ t, exec (.addReg x y) s = .next t ∧ Frame { regs := [x, 15] } s t ∧
    (let a := (s.getV x).toNat
     let b := (s.getV y).toNat
     let c := if a + b > 255 then 1 else 0
     (x ≠ 15 → (t.getV 15).toNat = c) ∧
     (x ≠ 15 → y ≠ 15 → (t.getV x).toNat = (a + b) % 256) ∧
     (x ≠ 15 → y = 15 → (t.getV x).toNat = (a + c) % 256) ∧
     (x = 15 → y ≠ 15 → (t.getV 15).toNat = (c + b) % 256) ∧
     (x = 15 → y = 15 → (t.getV 15).toNat = 2 * c))

/-- 8xy5: VF is 1 when V[x] is strictly greater, and V[x] the difference modulo 256. With x = F the
difference is taken from the flag, and with y = F the flag is subtracted (R128; that order is D6). -/
def Obligations.SubtractSetsGreater : Prop :=
  ∀ (x y : Reg) (s : State), ∃ t, exec (.subReg x y) s = .next t ∧ Frame { regs := [x, 15] } s t ∧
    (let a := (s.getV x).toNat
     let b := (s.getV y).toNat
     let c := if a > b then 1 else 0
     (x ≠ 15 → (t.getV 15).toNat = c) ∧
     (x ≠ 15 → y ≠ 15 → (t.getV x).toNat = (a + 256 - b) % 256) ∧
     (x ≠ 15 → y = 15 → (t.getV x).toNat = (a + 256 - c) % 256) ∧
     (x = 15 → y ≠ 15 → (t.getV 15).toNat = (c + 256 - b) % 256) ∧
     (x = 15 → y = 15 → (t.getV 15).toNat = 0))

/-- 8xy7: the same with the operands exchanged (R130; the order of the two writes is D6). -/
def Obligations.ReverseSubtractSetsGreater : Prop :=
  ∀ (x y : Reg) (s : State), ∃ t, exec (.subnReg x y) s = .next t ∧ Frame { regs := [x, 15] } s t ∧
    (let a := (s.getV x).toNat
     let b := (s.getV y).toNat
     let c := if b > a then 1 else 0
     (x ≠ 15 → (t.getV 15).toNat = c) ∧
     (x ≠ 15 → y ≠ 15 → (t.getV x).toNat = (b + 256 - a) % 256) ∧
     (x ≠ 15 → y = 15 → (t.getV x).toNat = (c + 256 - a) % 256) ∧
     (x = 15 → y ≠ 15 → (t.getV 15).toNat = (b + 256 - c) % 256) ∧
     (x = 15 → y = 15 → (t.getV 15).toNat = 0))

/-- 8xy6 and 8xyE shift V[x] by one and put the bit shifted out into VF, whatever y is; with x = F the
shift applies to the flag just written (R129, R131; that order is D6). -/
def Obligations.ShiftsMoveOneBit : Prop :=
  ∀ (x y : Reg) (s : State),
    (∃ t, exec (.shr x y) s = .next t ∧ Frame { regs := [x, 15] } s t ∧
      (x ≠ 15 → (t.getV x).toNat = (s.getV x).toNat / 2 ∧
        (t.getV 15).toNat = (s.getV x).toNat % 2) ∧
      (x = 15 → t.getV 15 = 0)) ∧
    (∃ t, exec (.shl x y) s = .next t ∧ Frame { regs := [x, 15] } s t ∧
      (x ≠ 15 → (t.getV x).toNat = (2 * (s.getV x).toNat) % 256 ∧
        (t.getV 15).toNat = (s.getV x).toNat / 128) ∧
      (x = 15 → (t.getV 15).toNat = 2 * ((s.getV 15).toNat / 128)))

/-- Cxkk masks one random byte, the oldest the host has injected, or else a free value, which may be any
byte; the byte is consumed (R132, R133; one draw per Cxkk is D17, the queue is log 2). -/
def Obligations.RandomByteIsMasked : Prop :=
  ∀ (x : Reg) (kk : Byte) (s : State), ∃ t, exec (.rnd x kk) s = .next t ∧
    Frame { regs := [x], random := true } s t ∧ t.getV x = s.randomByte &&& kk ∧
    (∀ r rest, s.rngQueue = r :: rest →
      t.getV x = r &&& kk ∧ t.rngQueue = rest ∧ t.rngCount = s.rngCount) ∧
    (s.rngQueue = [] → t.rngQueue = [] ∧ t.rngCount = s.rngCount + 1)

/-! ### Index and memory -/

/-- Annn loads nnn into I, and Fx29 five times the whole of V[x] (R141, R143). -/
def Obligations.IndexLoads : Prop :=
  ∀ (nnn : Addr) (x : Reg) (s : State),
    (∃ t, exec (.ldI nnn) s = .next t ∧ t.i.toNat = nnn.toNat ∧ Frame { index := true } s t) ∧
    (∃ t, exec (.ldFVx x) s = .next t ∧ t.i.toNat = 5 * (s.getV x).toNat ∧
      Frame { index := true } s t)

/-- Fx1E adds V[x] to I modulo 65536 and writes no flag (R142; the wrap is D12). -/
def Obligations.AddToIndexKeepsFlag : Prop :=
  ∀ (x : Reg) (s : State), ∃ t, exec (.addIVx x) s = .next t ∧
    t.i.toNat = (s.i.toNat + (s.getV x).toNat) % 65536 ∧ Frame { index := true } s t

/-- Fx33 stores the decimal digits of V[x], hundreds first, at I, I + 1, I + 2 and nothing else; where one
of the three addresses is above 0xFFF it raises AddressError with the first such address (R144; the
reported address is D13). -/
def Obligations.BcdStoresThreeDigits : Prop :=
  ∀ (x : Reg) (s : State), s.memWf →
    (indexAddress s 0 + 3 ≤ 4096 → ∃ t, exec (.ldBVx x) s = .next t ∧
      (t.readByte (indexAddress s 0)).toNat = (s.getV x).toNat / 100 ∧
      (t.readByte (indexAddress s 0 + 1)).toNat = (s.getV x).toNat / 10 % 10 ∧
      (t.readByte (indexAddress s 0 + 2)).toNat = (s.getV x).toNat % 10 ∧
      Frame { memStart := indexAddress s 0, memLen := 3 } s t) ∧
    (4096 < indexAddress s 0 + 3 →
      FaultsWith (exec (.ldBVx x) s) .addressError (max (indexAddress s 0) 0x1000))

/-- Fx55 stores V0 to V[x] at I upward and nothing else, and leaves I; an address above 0xFFF raises
AddressError with the first one (R145; the reported address is D13). -/
def Obligations.StoreRegistersAtIndex : Prop :=
  ∀ (x : Reg) (s : State), s.memWf →
    (indexAddress s 0 + (x.val + 1) ≤ 4096 → ∃ t, exec (.storeRegs x) s = .next t ∧
      (∀ k : Reg, k ≤ x → t.readByte (indexAddress s k.val) = s.getV k) ∧
      Frame { memStart := indexAddress s 0, memLen := x.val + 1 } s t) ∧
    (4096 < indexAddress s 0 + (x.val + 1) →
      FaultsWith (exec (.storeRegs x) s) .addressError (max (indexAddress s 0) 0x1000))

/-- Fx65 loads V0 to V[x] from I upward, leaves the other registers, I and memory; an address above 0xFFF
raises AddressError with the first one (R146; the reported address is D13). -/
def Obligations.LoadRegistersFromIndex : Prop :=
  ∀ (x : Reg) (s : State),
    (indexAddress s 0 + (x.val + 1) ≤ 4096 → ∃ t, exec (.loadRegs x) s = .next t ∧
      (∀ k : Reg, k ≤ x → t.getV k = s.readByte (indexAddress s k.val)) ∧
      Frame { regs := (List.finRange 16).filter fun r => r.val ≤ x.val } s t) ∧
    (4096 < indexAddress s 0 + (x.val + 1) →
      FaultsWith (exec (.loadRegs x) s) .addressError (max (indexAddress s 0) 0x1000))

/-- A value stored by Fx55 is seen by a later Fx65 of the same addresses, whatever the registers hold by
then (R61). -/
def Obligations.StoreThenLoadGivesTheRegistersBack : Prop :=
  ∀ (x : Reg) (s : State), s.memWf → indexAddress s 0 + (x.val + 1) ≤ 4096 →
    ∃ t, exec (.storeRegs x) s = .next t ∧
      ∀ v, ∃ u, exec (.loadRegs x) { t with v := v } = .next u ∧
        ∀ k : Reg, k ≤ x → u.getV k = s.getV k

/-- A store into code is seen by the next fetch of it, with no fence (R63; D23): after Fx55 with x ≥ 1 a
fetch at I + k joins the bytes V[k] and V[k + 1]. -/
def Obligations.FetchSeesTheStore : Prop :=
  ∀ (x : Reg) (s : State), s.memWf → indexAddress s 0 + (x.val + 1) ≤ 4096 →
    ∃ t, exec (.storeRegs x) s = .next t ∧
      ∀ k k' : Reg, k'.val = k.val + 1 → k' ≤ x →
        ∀ p : Word, p.toNat = indexAddress s k.val →
          fetch (t.setPc p) = .ok (joinBytes (s.getV k) (s.getV k'))

/-! ### Display -/

/-- 00E0 clears every pixel, changes nothing else, and its step reports draw-needed, on a clear display
too (R153). -/
def Obligations.ClearScreenClearsEveryPixel : Prop :=
  ∀ s : State,
    (∃ t, exec .cls s = .next t ∧ (∀ p, Display.pixel t.disp p = false) ∧
      Frame { disp := true } s t) ∧
    (s.executes .cls → ∃ t o, stepWithOutcome s = .next (t, o) ∧ o.drawNeeded = true)

/-- Dxyn XORs the n sprite bytes at I onto the display, most significant bit leftmost, each coordinate
wrapped on its own; VF is 1 when a set pixel was turned off, else 0. The coordinates are the registers'
values before the instruction (R151, R152; D7 for x or y = F). -/
def Obligations.DrawXorsTheSprite : Prop :=
  ∀ (x y : Reg) (n : Nat) (s : State), n ≤ 15 → (n = 0 ∨ indexAddress s 0 + n ≤ 4096) →
    (let hits : Pixel → Prop := fun q => ∃ r c, r < n ∧ c < 8 ∧
        (s.readByte (indexAddress s r)).getLsbD (7 - c) = true ∧
        q.1.val = ((s.getV x).toNat + c) % 64 ∧ q.2.val = ((s.getV y).toNat + r) % 32
     ∃ t, exec (.drw x y n) s = .next t ∧ Frame { regs := [15], disp := true } s t ∧
      (∀ q, hits q → Display.pixel t.disp q = !Display.pixel s.disp q) ∧
      (∀ q, ¬ hits q → Display.pixel t.disp q = Display.pixel s.disp q) ∧
      ((∃ q, hits q ∧ Display.pixel s.disp q = true) → t.getV 15 = 1) ∧
      ((∀ q, hits q → Display.pixel s.disp q = false) → t.getV 15 = 0))

/-- Dxyn of n ≥ 1 rows that reach above 0xFFF raises AddressError with the first such address (R151; the
reported address is D13). -/
def Obligations.DrawChecksItsAddresses : Prop :=
  ∀ (x y : Reg) (n : Nat) (s : State), 1 ≤ n → 4096 < indexAddress s 0 + n →
    FaultsWith (exec (.drw x y n) s) .addressError (max (indexAddress s 0) 0x1000)

/-- Drawing the same sprite twice in a row at the same coordinates restores every pixel. The second draw
reports VF = 1 exactly when the first one set a pixel (R151; R154 claims it of every sprite with a set
bit, which its own pseudocode refutes: log 12). -/
def Obligations.DrawingTwiceRestores : Prop :=
  ∀ (x y : Reg) (n : Nat) (s t : State), n ≤ 15 → exec (.drw x y n) s = .next t →
    t.getV x = s.getV x → t.getV y = s.getV y →
    (let hits : Pixel → Prop := fun q => ∃ r c, r < n ∧ c < 8 ∧
        (s.readByte (indexAddress s r)).getLsbD (7 - c) = true ∧
        q.1.val = ((s.getV x).toNat + c) % 64 ∧ q.2.val = ((s.getV y).toNat + r) % 32
     ∃ u, exec (.drw x y n) t = .next u ∧
      (∀ q, Display.pixel u.disp q = Display.pixel s.disp q) ∧
      ((∃ q, hits q ∧ Display.pixel s.disp q = false) → u.getV 15 = 1) ∧
      ((∀ q, hits q → Display.pixel s.disp q = true) → u.getV 15 = 0))

/-- The sentence of R154 as it stands: "The second draw reports VF = 1 whenever the sprite has at least one
set bit." Expected to fail: where every sprite bit met a set pixel, the first draw clears them all and the
second turns none off (log 12). -/
def Obligations.SecondDrawAlwaysCollides : Prop :=
  ∀ (x y : Reg) (n : Nat) (s t u : State), n ≤ 15 → x ≠ 15 → y ≠ 15 →
    exec (.drw x y n) s = .next t → exec (.drw x y n) t = .next u →
    (∃ r c, r < n ∧ c < 8 ∧ (s.readByte (indexAddress s r)).getLsbD (7 - c) = true) →
    u.getV 15 = 1

/-! ### Timers and keys -/

/-- Fx07 reads DT as it stands before the step's tick, and Fx15 writes DT, which the same step's tick then
counts down (R162, R164). -/
def Obligations.DelayTimerReadAndWrite : Prop :=
  ∀ (x : Reg) (s : State),
    (∃ t, exec (.ldVxDt x) s = .next t ∧ t.getV x = s.dt ∧ Frame { regs := [x] } s t) ∧
    (∃ t, exec (.ldDtVx x) s = .next t ∧ t.dt = s.getV x ∧ Frame { dt := true } s t) ∧
    (s.executes (.ldVxDt x) → ∃ t, step s = .next t ∧ t.getV x = s.dt ∧
      t.dt.toNat = s.dt.toNat - 1) ∧
    (s.executes (.ldDtVx x) → ∃ t, step s = .next t ∧ t.dt.toNat = (s.getV x).toNat - 1)

/-- Fx18 writes ST, which the same step's tick then counts down; the step requests the tone when V[x] is
not 0 (R165; the order of the request and the tick is D9). -/
def Obligations.SoundTimerWrite : Prop :=
  ∀ (x : Reg) (s : State),
    (∃ t, exec (.ldStVx x) s = .next t ∧ t.st = s.getV x ∧ Frame { st := true } s t) ∧
    (s.executes (.ldStVx x) → ∃ t o, stepWithOutcome s = .next (t, o) ∧
      t.st.toNat = (s.getV x).toNat - 1 ∧ (o.soundRequested = true ↔ s.getV x ≠ 0))

/-- Fx0A gives the lowest pressed key; with no key pressed PC goes back by 2, onto the instruction
(R163; the lowest key is D10). -/
def Obligations.KeyWaitTakesTheLowestKey : Prop :=
  ∀ (x : Reg) (s : State),
    (∀ k : Fin 16, s.key[k.val] = true → (∀ j : Fin 16, j < k → s.key[j.val] = false) →
      ∃ t, exec (.ldVxK x) s = .next t ∧ (t.getV x).toNat = k.val ∧ Frame { regs := [x] } s t) ∧
    ((∀ k : Fin 16, s.key[k.val] = false) →
      ∃ t, exec (.ldVxK x) s = .next t ∧ t.pc = s.pc - 2 ∧ Frame { pc := true } s t)

/-- While no key is pressed, Fx0A is polled again and again: n steps later only DT and ST have changed,
each counted down n times (R163, R185, R197). -/
def Obligations.KeyWaitOnlyTicks : Prop :=
  ∀ (n : Nat) (x : Reg) (s : State), s.executes (.ldVxK x) → (∀ k : Fin 16, s.key[k.val] = false) →
    runSteps n s = .next { s with dt := countDownBy n s.dt, st := countDownBy n s.st }

/-- From a self-jump every further step changes only DT and ST, which tick down to 0 (R200; the end
condition is D25). -/
def Obligations.SelfJumpOnlyTicks : Prop :=
  ∀ (n : Nat) (s : State), s.atSelfJump →
    runSteps n s = .next { s with dt := countDownBy n s.dt, st := countDownBy n s.st }

/-- DT counts steps: over n steps none of which executes Fx15, DT falls by n, not below 0, so an Fx07 then
reads that (R160, R197). -/
def Obligations.DelayTimerCountsSteps : Prop :=
  ∀ (n : Nat) (s t : State), runSteps n s = .next t →
    (∀ m u x, m < n → runSteps m s = .next u → ¬ u.executes (.ldDtVx x)) →
    t.dt.toNat = s.dt.toNat - n
end

