-- ==== Sys2Proof/Laws/Decode.lean ====
section
/-! SUPPORT. The fields of an encoded word, and the bits its row of the opcode map fixes. -/
namespace Sys2Proof

/-! ### The bits of a word of each shape -/

theorem getLsbD_wordA (op : BitVec 4) (nnn : Addr) (i : Nat) :
    (wordA op nnn).getLsbD i = if i < 12 then nnn.getLsbD i else op.getLsbD (i - 12) :=
  (BitVec.getLsbD_append (x := op) (y := nnn) (i := i)).trans (by split <;> simp [*])

theorem getLsbD_wordRI (op : BitVec 4) (x : Reg) (kk : Byte) (i : Nat) :
    (wordRI op x kk).getLsbD i =
      if i < 8 then kk.getLsbD i
      else if i - 8 < 4 then (regNibble x).getLsbD (i - 8) else op.getLsbD (i - 8 - 4) :=
  (BitVec.getLsbD_append (x := op ++ regNibble x) (y := kk) (i := i)).trans
    (by rw [BitVec.getLsbD_append])

theorem getLsbD_wordRRN (op : BitVec 4) (x y : Reg) (n : BitVec 4) (i : Nat) :
    (wordRRN op x y n).getLsbD i =
      if i < 4 then n.getLsbD i
      else if i - 4 < 4 then (regNibble y).getLsbD (i - 4)
      else if i - 4 - 4 < 4 then (regNibble x).getLsbD (i - 4 - 4)
      else op.getLsbD (i - 4 - 4 - 4) :=
  (BitVec.getLsbD_append (x := op ++ regNibble x ++ regNibble y) (y := n) (i := i)).trans
    (by rw [BitVec.getLsbD_append, BitVec.getLsbD_append])

@[simp] theorem regNibble_toFin (x : Reg) : (regNibble x).toFin = x := rfl

/-! ### Fields of a word of each shape (R82, R83) -/

@[simp] theorem opField_wordA (op : BitVec 4) (nnn : Addr) : opField (wordA op nnn) = op := by
  apply BitVec.eq_of_getLsbD_eq
  intro i hi
  simp only [opField, BitVec.getLsbD_extractLsb', getLsbD_wordA, hi, decide_true, Bool.true_and]
  interval_cases i <;> rfl

@[simp] theorem nnnField_wordA (op : BitVec 4) (nnn : Addr) : nnnField (wordA op nnn) = nnn := by
  apply BitVec.eq_of_getLsbD_eq
  intro i hi
  simp only [nnnField, BitVec.getLsbD_extractLsb', getLsbD_wordA, hi, decide_true, Bool.true_and]
  interval_cases i <;> rfl

@[simp] theorem opField_wordRI (op : BitVec 4) (x : Reg) (kk : Byte) : opField (wordRI op x kk) = op := by
  apply BitVec.eq_of_getLsbD_eq
  intro i hi
  simp only [opField, BitVec.getLsbD_extractLsb', getLsbD_wordRI, hi, decide_true, Bool.true_and]
  interval_cases i <;> rfl

@[simp] theorem xField_wordRI (op : BitVec 4) (x : Reg) (kk : Byte) : xField (wordRI op x kk) = x := by
  have : (wordRI op x kk).extractLsb' 8 4 = regNibble x := by
    apply BitVec.eq_of_getLsbD_eq
    intro i hi
    simp only [BitVec.getLsbD_extractLsb', getLsbD_wordRI, hi, decide_true, Bool.true_and]
    interval_cases i <;> rfl
  rw [xField, this, regNibble_toFin]

@[simp] theorem kkField_wordRI (op : BitVec 4) (x : Reg) (kk : Byte) : kkField (wordRI op x kk) = kk := by
  apply BitVec.eq_of_getLsbD_eq
  intro i hi
  simp only [kkField, BitVec.getLsbD_extractLsb', getLsbD_wordRI, hi, decide_true, Bool.true_and]
  interval_cases i <;> rfl

@[simp] theorem opField_wordRRN (op : BitVec 4) (x y : Reg) (n : BitVec 4) : opField (wordRRN op x y n) = op := by
  apply BitVec.eq_of_getLsbD_eq
  intro i hi
  simp only [opField, BitVec.getLsbD_extractLsb', getLsbD_wordRRN, hi, decide_true, Bool.true_and]
  interval_cases i <;> rfl

@[simp] theorem xField_wordRRN (op : BitVec 4) (x y : Reg) (n : BitVec 4) : xField (wordRRN op x y n) = x := by
  have : (wordRRN op x y n).extractLsb' 8 4 = regNibble x := by
    apply BitVec.eq_of_getLsbD_eq
    intro i hi
    simp only [BitVec.getLsbD_extractLsb', getLsbD_wordRRN, hi, decide_true, Bool.true_and]
    interval_cases i <;> rfl
  rw [xField, this, regNibble_toFin]

@[simp] theorem yField_wordRRN (op : BitVec 4) (x y : Reg) (n : BitVec 4) : yField (wordRRN op x y n) = y := by
  have : (wordRRN op x y n).extractLsb' 4 4 = regNibble y := by
    apply BitVec.eq_of_getLsbD_eq
    intro i hi
    simp only [BitVec.getLsbD_extractLsb', getLsbD_wordRRN, hi, decide_true, Bool.true_and]
    interval_cases i <;> rfl
  rw [yField, this, regNibble_toFin]

@[simp] theorem nField_wordRRN (op : BitVec 4) (x y : Reg) (n : BitVec 4) : nField (wordRRN op x y n) = n := by
  apply BitVec.eq_of_getLsbD_eq
  intro i hi
  simp only [nField, BitVec.getLsbD_extractLsb', getLsbD_wordRRN, hi, decide_true, Bool.true_and]
  interval_cases i <;> rfl

/-! ### The bits a row fixes (R85) -/

theorem wordA_and_mask (op : BitVec 4) (nnn : Addr) :
    wordA op nnn &&& 0xF000 = wordA op 0 := by
  apply BitVec.eq_of_getLsbD_eq
  intro i hi
  rw [BitVec.getLsbD_and, getLsbD_wordA, getLsbD_wordA]
  interval_cases i <;> simp

theorem wordRI_and_mask (op : BitVec 4) (x : Reg) (kk : Byte) :
    wordRI op x kk &&& 0xF000 = wordRI op 0 0 := by
  apply BitVec.eq_of_getLsbD_eq
  intro i hi
  rw [BitVec.getLsbD_and, getLsbD_wordRI, getLsbD_wordRI]
  interval_cases i <;> simp [regNibble]

theorem wordRI_and_byte_mask (op : BitVec 4) (x : Reg) (kk : Byte) :
    wordRI op x kk &&& 0xF0FF = wordRI op 0 kk := by
  apply BitVec.eq_of_getLsbD_eq
  intro i hi
  rw [BitVec.getLsbD_and, getLsbD_wordRI, getLsbD_wordRI]
  interval_cases i <;> simp [regNibble]

theorem wordRRN_and_mask (op : BitVec 4) (x y : Reg) (n : BitVec 4) :
    wordRRN op x y n &&& 0xF000 = wordRRN op 0 0 0 := by
  apply BitVec.eq_of_getLsbD_eq
  intro i hi
  rw [BitVec.getLsbD_and, getLsbD_wordRRN, getLsbD_wordRRN]
  interval_cases i <;> simp [regNibble]

theorem wordRRN_and_nibble_mask (op : BitVec 4) (x y : Reg) (n : BitVec 4) :
    wordRRN op x y n &&& 0xF00F = wordRRN op 0 0 n := by
  apply BitVec.eq_of_getLsbD_eq
  intro i hi
  rw [BitVec.getLsbD_and, getLsbD_wordRRN, getLsbD_wordRRN]
  interval_cases i <;> simp [regNibble]

end Sys2Proof
end

