-- ==== Sys2Proof/Laws/State.lean ====
section
/-! SUPPORT. One lemma per field per update of the state, all true by definition, so that no later proof
unfolds a record update. -/
namespace Sys2Proof.Machine

variable (s : State)

/-! ### `setV` -/

@[simp] theorem State.mem_setV (x : Reg) (b : Byte) : (s.setV x b).mem = s.mem := rfl
@[simp] theorem State.v_setV (x : Reg) (b : Byte) : (s.setV x b).v = s.v.set x.val b := rfl
@[simp] theorem State.i_setV (x : Reg) (b : Byte) : (s.setV x b).i = s.i := rfl
@[simp] theorem State.pc_setV (x : Reg) (b : Byte) : (s.setV x b).pc = s.pc := rfl
@[simp] theorem State.stack_setV (x : Reg) (b : Byte) : (s.setV x b).stack = s.stack := rfl
@[simp] theorem State.sp_setV (x : Reg) (b : Byte) : (s.setV x b).sp = s.sp := rfl
@[simp] theorem State.dt_setV (x : Reg) (b : Byte) : (s.setV x b).dt = s.dt := rfl
@[simp] theorem State.st_setV (x : Reg) (b : Byte) : (s.setV x b).st = s.st := rfl
@[simp] theorem State.disp_setV (x : Reg) (b : Byte) : (s.setV x b).disp = s.disp := rfl
@[simp] theorem State.key_setV (x : Reg) (b : Byte) : (s.setV x b).key = s.key := rfl
@[simp] theorem State.phase_setV (x : Reg) (b : Byte) : (s.setV x b).phase = s.phase := rfl
@[simp] theorem State.fontRom_setV (x : Reg) (b : Byte) : (s.setV x b).fontRom = s.fontRom := rfl
@[simp] theorem State.rngQueue_setV (x : Reg) (b : Byte) : (s.setV x b).rngQueue = s.rngQueue := rfl
@[simp] theorem State.rngCount_setV (x : Reg) (b : Byte) : (s.setV x b).rngCount = s.rngCount := rfl
@[simp] theorem State.readByte_setV (x : Reg) (b : Byte) (k : Nat) : (s.setV x b).readByte k = s.readByte k := rfl

/-! ### `setVUpTo` -/

@[simp] theorem State.mem_setVUpTo (x : Reg) (f : Nat → Byte) : (s.setVUpTo x f).mem = s.mem := rfl
@[simp] theorem State.v_setVUpTo (x : Reg) (f : Nat → Byte) : (s.setVUpTo x f).v = Vector.ofFn fun k => if k.val ≤ x.val then f k.val else s.v[k.val] := rfl
@[simp] theorem State.i_setVUpTo (x : Reg) (f : Nat → Byte) : (s.setVUpTo x f).i = s.i := rfl
@[simp] theorem State.pc_setVUpTo (x : Reg) (f : Nat → Byte) : (s.setVUpTo x f).pc = s.pc := rfl
@[simp] theorem State.stack_setVUpTo (x : Reg) (f : Nat → Byte) : (s.setVUpTo x f).stack = s.stack := rfl
@[simp] theorem State.sp_setVUpTo (x : Reg) (f : Nat → Byte) : (s.setVUpTo x f).sp = s.sp := rfl
@[simp] theorem State.dt_setVUpTo (x : Reg) (f : Nat → Byte) : (s.setVUpTo x f).dt = s.dt := rfl
@[simp] theorem State.st_setVUpTo (x : Reg) (f : Nat → Byte) : (s.setVUpTo x f).st = s.st := rfl
@[simp] theorem State.disp_setVUpTo (x : Reg) (f : Nat → Byte) : (s.setVUpTo x f).disp = s.disp := rfl
@[simp] theorem State.key_setVUpTo (x : Reg) (f : Nat → Byte) : (s.setVUpTo x f).key = s.key := rfl
@[simp] theorem State.phase_setVUpTo (x : Reg) (f : Nat → Byte) : (s.setVUpTo x f).phase = s.phase := rfl
@[simp] theorem State.fontRom_setVUpTo (x : Reg) (f : Nat → Byte) : (s.setVUpTo x f).fontRom = s.fontRom := rfl
@[simp] theorem State.rngQueue_setVUpTo (x : Reg) (f : Nat → Byte) : (s.setVUpTo x f).rngQueue = s.rngQueue := rfl
@[simp] theorem State.rngCount_setVUpTo (x : Reg) (f : Nat → Byte) : (s.setVUpTo x f).rngCount = s.rngCount := rfl
@[simp] theorem State.readByte_setVUpTo (x : Reg) (f : Nat → Byte) (k : Nat) : (s.setVUpTo x f).readByte k = s.readByte k := rfl

/-! ### `setI` -/

@[simp] theorem State.mem_setI (w : Word) : (s.setI w).mem = s.mem := rfl
@[simp] theorem State.v_setI (w : Word) : (s.setI w).v = s.v := rfl
@[simp] theorem State.i_setI (w : Word) : (s.setI w).i = w := rfl
@[simp] theorem State.pc_setI (w : Word) : (s.setI w).pc = s.pc := rfl
@[simp] theorem State.stack_setI (w : Word) : (s.setI w).stack = s.stack := rfl
@[simp] theorem State.sp_setI (w : Word) : (s.setI w).sp = s.sp := rfl
@[simp] theorem State.dt_setI (w : Word) : (s.setI w).dt = s.dt := rfl
@[simp] theorem State.st_setI (w : Word) : (s.setI w).st = s.st := rfl
@[simp] theorem State.disp_setI (w : Word) : (s.setI w).disp = s.disp := rfl
@[simp] theorem State.key_setI (w : Word) : (s.setI w).key = s.key := rfl
@[simp] theorem State.phase_setI (w : Word) : (s.setI w).phase = s.phase := rfl
@[simp] theorem State.fontRom_setI (w : Word) : (s.setI w).fontRom = s.fontRom := rfl
@[simp] theorem State.rngQueue_setI (w : Word) : (s.setI w).rngQueue = s.rngQueue := rfl
@[simp] theorem State.rngCount_setI (w : Word) : (s.setI w).rngCount = s.rngCount := rfl
@[simp] theorem State.getV_setI (w : Word) (r : Reg) : (s.setI w).getV r = s.getV r := rfl
@[simp] theorem State.readByte_setI (w : Word) (k : Nat) : (s.setI w).readByte k = s.readByte k := rfl

/-! ### `setPc` -/

@[simp] theorem State.mem_setPc (w : Word) : (s.setPc w).mem = s.mem := rfl
@[simp] theorem State.v_setPc (w : Word) : (s.setPc w).v = s.v := rfl
@[simp] theorem State.i_setPc (w : Word) : (s.setPc w).i = s.i := rfl
@[simp] theorem State.pc_setPc (w : Word) : (s.setPc w).pc = w := rfl
@[simp] theorem State.stack_setPc (w : Word) : (s.setPc w).stack = s.stack := rfl
@[simp] theorem State.sp_setPc (w : Word) : (s.setPc w).sp = s.sp := rfl
@[simp] theorem State.dt_setPc (w : Word) : (s.setPc w).dt = s.dt := rfl
@[simp] theorem State.st_setPc (w : Word) : (s.setPc w).st = s.st := rfl
@[simp] theorem State.disp_setPc (w : Word) : (s.setPc w).disp = s.disp := rfl
@[simp] theorem State.key_setPc (w : Word) : (s.setPc w).key = s.key := rfl
@[simp] theorem State.phase_setPc (w : Word) : (s.setPc w).phase = s.phase := rfl
@[simp] theorem State.fontRom_setPc (w : Word) : (s.setPc w).fontRom = s.fontRom := rfl
@[simp] theorem State.rngQueue_setPc (w : Word) : (s.setPc w).rngQueue = s.rngQueue := rfl
@[simp] theorem State.rngCount_setPc (w : Word) : (s.setPc w).rngCount = s.rngCount := rfl
@[simp] theorem State.getV_setPc (w : Word) (r : Reg) : (s.setPc w).getV r = s.getV r := rfl
@[simp] theorem State.readByte_setPc (w : Word) (k : Nat) : (s.setPc w).readByte k = s.readByte k := rfl

/-! ### `advance` -/

@[simp] theorem State.mem_advance : s.advance.mem = s.mem := rfl
@[simp] theorem State.v_advance : s.advance.v = s.v := rfl
@[simp] theorem State.i_advance : s.advance.i = s.i := rfl
@[simp] theorem State.pc_advance : s.advance.pc = s.pc + 2 := rfl
@[simp] theorem State.stack_advance : s.advance.stack = s.stack := rfl
@[simp] theorem State.sp_advance : s.advance.sp = s.sp := rfl
@[simp] theorem State.dt_advance : s.advance.dt = s.dt := rfl
@[simp] theorem State.st_advance : s.advance.st = s.st := rfl
@[simp] theorem State.disp_advance : s.advance.disp = s.disp := rfl
@[simp] theorem State.key_advance : s.advance.key = s.key := rfl
@[simp] theorem State.phase_advance : s.advance.phase = s.phase := rfl
@[simp] theorem State.fontRom_advance : s.advance.fontRom = s.fontRom := rfl
@[simp] theorem State.rngQueue_advance : s.advance.rngQueue = s.rngQueue := rfl
@[simp] theorem State.rngCount_advance : s.advance.rngCount = s.rngCount := rfl
@[simp] theorem State.getV_advance (r : Reg) : s.advance.getV r = s.getV r := rfl
@[simp] theorem State.readByte_advance (k : Nat) : s.advance.readByte k = s.readByte k := rfl

/-! ### `setDt` -/

@[simp] theorem State.mem_setDt (b : Byte) : (s.setDt b).mem = s.mem := rfl
@[simp] theorem State.v_setDt (b : Byte) : (s.setDt b).v = s.v := rfl
@[simp] theorem State.i_setDt (b : Byte) : (s.setDt b).i = s.i := rfl
@[simp] theorem State.pc_setDt (b : Byte) : (s.setDt b).pc = s.pc := rfl
@[simp] theorem State.stack_setDt (b : Byte) : (s.setDt b).stack = s.stack := rfl
@[simp] theorem State.sp_setDt (b : Byte) : (s.setDt b).sp = s.sp := rfl
@[simp] theorem State.dt_setDt (b : Byte) : (s.setDt b).dt = b := rfl
@[simp] theorem State.st_setDt (b : Byte) : (s.setDt b).st = s.st := rfl
@[simp] theorem State.disp_setDt (b : Byte) : (s.setDt b).disp = s.disp := rfl
@[simp] theorem State.key_setDt (b : Byte) : (s.setDt b).key = s.key := rfl
@[simp] theorem State.phase_setDt (b : Byte) : (s.setDt b).phase = s.phase := rfl
@[simp] theorem State.fontRom_setDt (b : Byte) : (s.setDt b).fontRom = s.fontRom := rfl
@[simp] theorem State.rngQueue_setDt (b : Byte) : (s.setDt b).rngQueue = s.rngQueue := rfl
@[simp] theorem State.rngCount_setDt (b : Byte) : (s.setDt b).rngCount = s.rngCount := rfl
@[simp] theorem State.getV_setDt (b : Byte) (r : Reg) : (s.setDt b).getV r = s.getV r := rfl
@[simp] theorem State.readByte_setDt (b : Byte) (k : Nat) : (s.setDt b).readByte k = s.readByte k := rfl

/-! ### `setSt` -/

@[simp] theorem State.mem_setSt (b : Byte) : (s.setSt b).mem = s.mem := rfl
@[simp] theorem State.v_setSt (b : Byte) : (s.setSt b).v = s.v := rfl
@[simp] theorem State.i_setSt (b : Byte) : (s.setSt b).i = s.i := rfl
@[simp] theorem State.pc_setSt (b : Byte) : (s.setSt b).pc = s.pc := rfl
@[simp] theorem State.stack_setSt (b : Byte) : (s.setSt b).stack = s.stack := rfl
@[simp] theorem State.sp_setSt (b : Byte) : (s.setSt b).sp = s.sp := rfl
@[simp] theorem State.dt_setSt (b : Byte) : (s.setSt b).dt = s.dt := rfl
@[simp] theorem State.st_setSt (b : Byte) : (s.setSt b).st = b := rfl
@[simp] theorem State.disp_setSt (b : Byte) : (s.setSt b).disp = s.disp := rfl
@[simp] theorem State.key_setSt (b : Byte) : (s.setSt b).key = s.key := rfl
@[simp] theorem State.phase_setSt (b : Byte) : (s.setSt b).phase = s.phase := rfl
@[simp] theorem State.fontRom_setSt (b : Byte) : (s.setSt b).fontRom = s.fontRom := rfl
@[simp] theorem State.rngQueue_setSt (b : Byte) : (s.setSt b).rngQueue = s.rngQueue := rfl
@[simp] theorem State.rngCount_setSt (b : Byte) : (s.setSt b).rngCount = s.rngCount := rfl
@[simp] theorem State.getV_setSt (b : Byte) (r : Reg) : (s.setSt b).getV r = s.getV r := rfl
@[simp] theorem State.readByte_setSt (b : Byte) (k : Nat) : (s.setSt b).readByte k = s.readByte k := rfl

/-! ### `setDisp` -/

@[simp] theorem State.mem_setDisp (d : Display) : (s.setDisp d).mem = s.mem := rfl
@[simp] theorem State.v_setDisp (d : Display) : (s.setDisp d).v = s.v := rfl
@[simp] theorem State.i_setDisp (d : Display) : (s.setDisp d).i = s.i := rfl
@[simp] theorem State.pc_setDisp (d : Display) : (s.setDisp d).pc = s.pc := rfl
@[simp] theorem State.stack_setDisp (d : Display) : (s.setDisp d).stack = s.stack := rfl
@[simp] theorem State.sp_setDisp (d : Display) : (s.setDisp d).sp = s.sp := rfl
@[simp] theorem State.dt_setDisp (d : Display) : (s.setDisp d).dt = s.dt := rfl
@[simp] theorem State.st_setDisp (d : Display) : (s.setDisp d).st = s.st := rfl
@[simp] theorem State.disp_setDisp (d : Display) : (s.setDisp d).disp = d := rfl
@[simp] theorem State.key_setDisp (d : Display) : (s.setDisp d).key = s.key := rfl
@[simp] theorem State.phase_setDisp (d : Display) : (s.setDisp d).phase = s.phase := rfl
@[simp] theorem State.fontRom_setDisp (d : Display) : (s.setDisp d).fontRom = s.fontRom := rfl
@[simp] theorem State.rngQueue_setDisp (d : Display) : (s.setDisp d).rngQueue = s.rngQueue := rfl
@[simp] theorem State.rngCount_setDisp (d : Display) : (s.setDisp d).rngCount = s.rngCount := rfl
@[simp] theorem State.getV_setDisp (d : Display) (r : Reg) : (s.setDisp d).getV r = s.getV r := rfl
@[simp] theorem State.readByte_setDisp (d : Display) (k : Nat) : (s.setDisp d).readByte k = s.readByte k := rfl

/-! ### `storeBytes` -/

@[simp] theorem State.mem_storeBytes (a : Nat) (ws : List Byte) : (s.storeBytes a ws).mem = Memory.writeBytes s.fontRom s.mem a ws := rfl
@[simp] theorem State.v_storeBytes (a : Nat) (ws : List Byte) : (s.storeBytes a ws).v = s.v := rfl
@[simp] theorem State.i_storeBytes (a : Nat) (ws : List Byte) : (s.storeBytes a ws).i = s.i := rfl
@[simp] theorem State.pc_storeBytes (a : Nat) (ws : List Byte) : (s.storeBytes a ws).pc = s.pc := rfl
@[simp] theorem State.stack_storeBytes (a : Nat) (ws : List Byte) : (s.storeBytes a ws).stack = s.stack := rfl
@[simp] theorem State.sp_storeBytes (a : Nat) (ws : List Byte) : (s.storeBytes a ws).sp = s.sp := rfl
@[simp] theorem State.dt_storeBytes (a : Nat) (ws : List Byte) : (s.storeBytes a ws).dt = s.dt := rfl
@[simp] theorem State.st_storeBytes (a : Nat) (ws : List Byte) : (s.storeBytes a ws).st = s.st := rfl
@[simp] theorem State.disp_storeBytes (a : Nat) (ws : List Byte) : (s.storeBytes a ws).disp = s.disp := rfl
@[simp] theorem State.key_storeBytes (a : Nat) (ws : List Byte) : (s.storeBytes a ws).key = s.key := rfl
@[simp] theorem State.phase_storeBytes (a : Nat) (ws : List Byte) : (s.storeBytes a ws).phase = s.phase := rfl
@[simp] theorem State.fontRom_storeBytes (a : Nat) (ws : List Byte) : (s.storeBytes a ws).fontRom = s.fontRom := rfl
@[simp] theorem State.rngQueue_storeBytes (a : Nat) (ws : List Byte) : (s.storeBytes a ws).rngQueue = s.rngQueue := rfl
@[simp] theorem State.rngCount_storeBytes (a : Nat) (ws : List Byte) : (s.storeBytes a ws).rngCount = s.rngCount := rfl
@[simp] theorem State.getV_storeBytes (a : Nat) (ws : List Byte) (r : Reg) : (s.storeBytes a ws).getV r = s.getV r := rfl

/-! ### `tick` -/

@[simp] theorem State.mem_tick : s.tick.mem = s.mem := rfl
@[simp] theorem State.v_tick : s.tick.v = s.v := rfl
@[simp] theorem State.i_tick : s.tick.i = s.i := rfl
@[simp] theorem State.pc_tick : s.tick.pc = s.pc := rfl
@[simp] theorem State.stack_tick : s.tick.stack = s.stack := rfl
@[simp] theorem State.sp_tick : s.tick.sp = s.sp := rfl
@[simp] theorem State.dt_tick : s.tick.dt = countDown s.dt := rfl
@[simp] theorem State.st_tick : s.tick.st = countDown s.st := rfl
@[simp] theorem State.disp_tick : s.tick.disp = s.disp := rfl
@[simp] theorem State.key_tick : s.tick.key = s.key := rfl
@[simp] theorem State.phase_tick : s.tick.phase = s.phase := rfl
@[simp] theorem State.fontRom_tick : s.tick.fontRom = s.fontRom := rfl
@[simp] theorem State.rngQueue_tick : s.tick.rngQueue = s.rngQueue := rfl
@[simp] theorem State.rngCount_tick : s.tick.rngCount = s.rngCount := rfl
@[simp] theorem State.getV_tick (r : Reg) : s.tick.getV r = s.getV r := rfl
@[simp] theorem State.readByte_tick (k : Nat) : s.tick.readByte k = s.readByte k := rfl

/-! ### `skipIf` -/

@[simp] theorem State.mem_skipIf (cond : Bool) : (s.skipIf cond).mem = s.mem := by
  cases cond <;> rfl
@[simp] theorem State.v_skipIf (cond : Bool) : (s.skipIf cond).v = s.v := by
  cases cond <;> rfl
@[simp] theorem State.i_skipIf (cond : Bool) : (s.skipIf cond).i = s.i := by
  cases cond <;> rfl
@[simp] theorem State.stack_skipIf (cond : Bool) : (s.skipIf cond).stack = s.stack := by
  cases cond <;> rfl
@[simp] theorem State.sp_skipIf (cond : Bool) : (s.skipIf cond).sp = s.sp := by
  cases cond <;> rfl
@[simp] theorem State.dt_skipIf (cond : Bool) : (s.skipIf cond).dt = s.dt := by
  cases cond <;> rfl
@[simp] theorem State.st_skipIf (cond : Bool) : (s.skipIf cond).st = s.st := by
  cases cond <;> rfl
@[simp] theorem State.disp_skipIf (cond : Bool) : (s.skipIf cond).disp = s.disp := by
  cases cond <;> rfl
@[simp] theorem State.key_skipIf (cond : Bool) : (s.skipIf cond).key = s.key := by
  cases cond <;> rfl
@[simp] theorem State.phase_skipIf (cond : Bool) : (s.skipIf cond).phase = s.phase := by
  cases cond <;> rfl
@[simp] theorem State.fontRom_skipIf (cond : Bool) : (s.skipIf cond).fontRom = s.fontRom := by
  cases cond <;> rfl
@[simp] theorem State.rngQueue_skipIf (cond : Bool) : (s.skipIf cond).rngQueue = s.rngQueue := by
  cases cond <;> rfl
@[simp] theorem State.rngCount_skipIf (cond : Bool) : (s.skipIf cond).rngCount = s.rngCount := by
  cases cond <;> rfl
@[simp] theorem State.pc_skipIf (cond : Bool) :
    (s.skipIf cond).pc = if cond = true then s.pc + 2 else s.pc := by
  cases cond <;> rfl
@[simp] theorem State.getV_skipIf (cond : Bool) (r : Reg) : (s.skipIf cond).getV r = s.getV r := by
  cases cond <;> rfl
@[simp] theorem State.readByte_skipIf (cond : Bool) (k : Nat) :
    (s.skipIf cond).readByte k = s.readByte k := by
  cases cond <;> rfl

/-! ### Registers -/

@[simp] theorem State.getV_setV_self (x : Reg) (b : Byte) : (s.setV x b).getV x = b := by
  simp [State.getV, State.setV]

theorem State.getV_setV_ne (x r : Reg) (b : Byte) (h : r ≠ x) :
    (s.setV x b).getV r = s.getV r := by
  have h' : x.val ≠ r.val := fun e => h (Fin.ext e.symm)
  simp [State.getV, State.setV, Vector.getElem_set_ne, h']

/-- Reading any register after a register write. -/
theorem State.getV_setV (x r : Reg) (b : Byte) :
    (s.setV x b).getV r = if r = x then b else s.getV r := by
  split
  · next h => subst h; simp
  · next h => exact s.getV_setV_ne x r b h

/-- Reading any register after a write of V[0..x]. -/
theorem State.getV_setVUpTo (x r : Reg) (f : Nat → Byte) :
    (s.setVUpTo x f).getV r = if r.val ≤ x.val then f r.val else s.getV r := by
  simp [State.getV, State.setVUpTo]

/-- The k-th byte Fx55 stores is V[k] (R145). -/
theorem State.getVUpTo_eq (x : Reg) (k : Nat) (h : k ≤ x.val) :
    (s.getVUpTo x)[k]? = some (s.getV ⟨k, Nat.lt_of_le_of_lt h x.isLt⟩) := by
  simp [State.getVUpTo, State.getV, Nat.lt_succ_of_le h]

@[simp] theorem State.length_getVUpTo (x : Reg) : (s.getVUpTo x).length = x.val + 1 := by
  simp [State.getVUpTo]

/-! ### The random source -/

@[simp] theorem State.mem_dropRandom : s.dropRandom.mem = s.mem := by
  unfold State.dropRandom; split <;> rfl
@[simp] theorem State.v_dropRandom : s.dropRandom.v = s.v := by
  unfold State.dropRandom; split <;> rfl
@[simp] theorem State.i_dropRandom : s.dropRandom.i = s.i := by
  unfold State.dropRandom; split <;> rfl
@[simp] theorem State.pc_dropRandom : s.dropRandom.pc = s.pc := by
  unfold State.dropRandom; split <;> rfl
@[simp] theorem State.stack_dropRandom : s.dropRandom.stack = s.stack := by
  unfold State.dropRandom; split <;> rfl
@[simp] theorem State.sp_dropRandom : s.dropRandom.sp = s.sp := by
  unfold State.dropRandom; split <;> rfl
@[simp] theorem State.dt_dropRandom : s.dropRandom.dt = s.dt := by
  unfold State.dropRandom; split <;> rfl
@[simp] theorem State.st_dropRandom : s.dropRandom.st = s.st := by
  unfold State.dropRandom; split <;> rfl
@[simp] theorem State.disp_dropRandom : s.dropRandom.disp = s.disp := by
  unfold State.dropRandom; split <;> rfl
@[simp] theorem State.key_dropRandom : s.dropRandom.key = s.key := by
  unfold State.dropRandom; split <;> rfl
@[simp] theorem State.phase_dropRandom : s.dropRandom.phase = s.phase := by
  unfold State.dropRandom; split <;> rfl
@[simp] theorem State.fontRom_dropRandom : s.dropRandom.fontRom = s.fontRom := by
  unfold State.dropRandom; split <;> rfl
@[simp] theorem State.getV_dropRandom (r : Reg) : s.dropRandom.getV r = s.getV r := by
  simp [State.getV]
@[simp] theorem State.readByte_dropRandom (k : Nat) : s.dropRandom.readByte k = s.readByte k := by
  simp [State.readByte]

/-- A draw takes the oldest injected byte, and leaves the counter alone. -/
theorem State.random_of_queue (r : Byte) (rest : List Byte) (h : s.rngQueue = r :: rest) :
    s.randomByte = r ∧ s.dropRandom.rngQueue = rest ∧ s.dropRandom.rngCount = s.rngCount := by
  simp [State.randomByte, State.dropRandom, h]

/-- With no injected byte, a draw is the next free value. -/
theorem State.random_of_empty (h : s.rngQueue = []) :
    s.randomByte = Config.randomByte s.rngCount ∧ s.dropRandom.rngQueue = [] ∧
      s.dropRandom.rngCount = s.rngCount + 1 := by
  simp [State.randomByte, State.dropRandom, h]

end Sys2Proof.Machine
end

