-- ==== Sys2Proof/Laws/Memory.lean ====
section
/-! SUPPORT. The laws of memory: a read after a write, and the canonical form, which every memory
operation keeps. -/
namespace Sys2Proof.Machine

variable (font : FontRom)

theorem Memory.lookup_entry (a b : Nat) (w : Byte) :
    Memory.lookup (Memory.entry font a w) b =
      if b = a then (if w = unlisted font a then none else some w) else none := by
  unfold Memory.entry
  split <;> simp [Memory.lookup]

theorem Memory.lookup_append (m n : Memory) (b : Nat) :
    Memory.lookup (m ++ n) b = (Memory.lookup m b).or (Memory.lookup n b) := by
  induction m with
  | nil => simp [Memory.lookup]
  | cons c m ih =>
    obtain ⟨a, w⟩ := c
    simp only [List.cons_append, Memory.lookup, ih]
    split <;> simp

/-- No cell stands at an address below all listed ones. -/
theorem Memory.lookup_eq_none (m : Memory) (b : Nat) (h : ∀ c ∈ m, c.1 ≠ b) :
    Memory.lookup m b = none := by
  induction m with
  | nil => rfl
  | cons c m ih =>
    obtain ⟨a, w⟩ := c
    have hne : b ≠ a := fun e => h (a, w) (by simp) e.symm
    simp only [Memory.lookup, if_neg hne]
    exact ih fun d hd => h d (by simp [hd])

theorem Memory.read_eq (m : Memory) (a : Nat) :
    Memory.read font m a = (Memory.lookup m a).getD (unlisted font a) := rfl

/-- A read after a write, for a memory whose addresses rise strictly. -/
theorem Memory.read_write (m : Memory) (hm : m.Pairwise (fun c d => c.1 < d.1))
    (a b : Nat) (w : Byte) :
    Memory.read font (Memory.write font m a w) b =
      if b = a then w else Memory.read font m b := by
  induction m with
  | nil =>
    simp only [Memory.write, Memory.read_eq, Memory.lookup_entry]
    by_cases h : b = a <;> by_cases h2 : w = unlisted font a <;> simp [h, h2, Memory.lookup]
  | cons c m ih =>
    obtain ⟨d, u⟩ := c
    obtain ⟨hhead, htail⟩ := List.pairwise_cons.mp hm
    simp only [Memory.write]
    split
    · next hlt =>
      have hlt : a < d := hlt
      have hnone : Memory.lookup ((d, u) :: m) a = none := by
        refine Memory.lookup_eq_none _ _ fun e he => ?_
        rcases List.mem_cons.mp he with rfl | he
        · exact fun h => absurd h (Nat.ne_of_gt hlt)
        · have := hhead e he
          simp only at this
          omega
      simp only [Memory.read_eq, Memory.lookup_append, Memory.lookup_entry]
      by_cases h : b = a
      · subst h
        by_cases h2 : w = unlisted font b <;> simp [h2, hnone]
      · simp [h]
    · split
      · next hge heq =>
        have heq : a = d := heq
        subst heq
        have hnone : Memory.lookup m a = none := by
          refine Memory.lookup_eq_none _ _ fun e he => ?_
          have := hhead e he
          simp only at this
          omega
        simp only [Memory.read_eq, Memory.lookup_append, Memory.lookup_entry]
        by_cases h : b = a
        · subst h
          by_cases h2 : w = unlisted font b <;> simp [h2, hnone]
        · simp [h, Memory.lookup]
      · next hge hne =>
        have hne : a ≠ d := hne
        have ih := ih htail
        simp only [Memory.read_eq, Memory.lookup] at ih ⊢
        by_cases h : b = d
        · subst h
          simp [Ne.symm hne]
        · simp only [if_neg h]
          exact ih

/-- The addresses of a written memory are the old ones and the written one. -/
theorem Memory.mem_write (m : Memory) (a : Nat) (w : Byte) (c : Host.Cell)
    (h : c ∈ Memory.write font m a w) : c ∈ m ∨ (c = (a, w) ∧ w ≠ unlisted font a) := by
  have hentry : ∀ c ∈ Memory.entry font a w, c = (a, w) ∧ w ≠ unlisted font a := by
    intro c hc
    unfold Memory.entry at hc
    split at hc
    · simp at hc
    · next hne => exact ⟨by simpa using hc, hne⟩
  induction m with
  | nil => exact .inr (hentry c h)
  | cons d m ih =>
    simp only [Memory.write] at h
    split at h
    · rcases List.mem_append.mp h with h | h
      · exact .inr (hentry c h)
      · exact .inl h
    · split at h
      · rcases List.mem_append.mp h with h | h
        · exact .inr (hentry c h)
        · exact .inl (List.mem_cons_of_mem _ h)
      · rcases List.mem_cons.mp h with rfl | h
        · exact .inl (List.mem_cons_self ..)
        · exact (ih h).imp (List.mem_cons_of_mem _) id

theorem Memory.pairwise_write (m : Memory) (hm : m.Pairwise (fun c d => c.1 < d.1))
    (a : Nat) (w : Byte) : (Memory.write font m a w).Pairwise (fun c d => c.1 < d.1) := by
  have hentry : ∀ n : Memory, n.Pairwise (fun c d => c.1 < d.1) → (∀ c ∈ n, a < c.1) →
      (Memory.entry font a w ++ n).Pairwise (fun c d => c.1 < d.1) := by
    intro n hn hlt
    unfold Memory.entry
    split
    · simpa using hn
    · exact List.pairwise_cons.mpr ⟨hlt, hn⟩
  induction m with
  | nil => simpa [Memory.write] using hentry [] .nil (by simp)
  | cons d m ih =>
    obtain ⟨hhead, htail⟩ := List.pairwise_cons.mp hm
    simp only [Memory.write]
    split
    · next hlt =>
      refine hentry _ hm fun c hc => ?_
      rcases List.mem_cons.mp hc with rfl | hc
      · exact hlt
      · exact Nat.lt_trans hlt (hhead c hc)
    · split
      · next heq => exact hentry _ htail fun c hc => heq ▸ hhead c hc
      · next hge hne =>
        refine List.pairwise_cons.mpr ⟨fun c hc => ?_, ih htail⟩
        rcases Memory.mem_write font m a w c hc with hc | ⟨rfl, -⟩
        · exact hhead c hc
        · simp only
          omega

/-- A write of one byte in range keeps the canonical form. -/
theorem Memory.wf_write (m : Memory) (hm : Memory.wf font m) (a : Nat) (w : Byte)
    (ha : a < Config.memSize) : Memory.wf font (Memory.write font m a w) := by
  refine ⟨Memory.pairwise_write font m hm.1 a w, fun c hc => ?_⟩
  rcases Memory.mem_write font m a w c hc with hc | ⟨rfl, hne⟩
  · exact hm.2 c hc
  · exact ⟨ha, hne⟩

/-- A write of a list of bytes in range keeps the canonical form. -/
theorem Memory.wf_writeBytes (m : Memory) (hm : Memory.wf font m) (a : Nat) (ws : List Byte)
    (ha : a + ws.length ≤ Config.memSize) : Memory.wf font (Memory.writeBytes font m a ws) := by
  induction ws generalizing a with
  | nil => exact hm
  | cons w ws ih =>
    have ha' : a + (ws.length + 1) ≤ Config.memSize := ha
    exact Memory.wf_write font _ (ih (a + 1) (by omega)) a w (by omega)

/-- A write of a list of bytes keeps the addresses strictly rising. -/
theorem Memory.pairwise_writeBytes (m : Memory) (hm : m.Pairwise (fun c d => c.1 < d.1))
    (a : Nat) (ws : List Byte) :
    (Memory.writeBytes font m a ws).Pairwise (fun c d => c.1 < d.1) := by
  induction ws generalizing a with
  | nil => exact hm
  | cons w ws ih => exact Memory.pairwise_write font _ (ih (a + 1)) a w

/-- A read after a write of a list of bytes. -/
theorem Memory.read_writeBytes (m : Memory) (hm : m.Pairwise (fun c d => c.1 < d.1))
    (a b : Nat) (ws : List Byte) :
    Memory.read font (Memory.writeBytes font m a ws) b =
      if a ≤ b then (ws[b - a]?).getD (Memory.read font m b) else Memory.read font m b := by
  induction ws generalizing a with
  | nil => simp [Memory.writeBytes]
  | cons w ws ih =>
    simp only [Memory.writeBytes]
    rw [Memory.read_write font _ (Memory.pairwise_writeBytes font m hm (a + 1) ws), ih]
    by_cases h : b = a
    · subst h; simp
    · by_cases h2 : a ≤ b
      · obtain ⟨k, rfl⟩ : ∃ k, b = a + 1 + k := ⟨b - (a + 1), by omega⟩
        have e1 : a + 1 + k - (a + 1) = k := by omega
        have e2 : a + 1 + k - a = k + 1 := by omega
        simp [h, h2, e1, e2]
      · have h3 : ¬ a + 1 ≤ b := by omega
        simp [h, h2, h3]

/-! ### Canonical memories are equal when they read alike -/

theorem Memory.lookup_of_mem (m : Memory) (hm : m.Pairwise (fun c d => c.1 < d.1))
    (c : Host.Cell) (hc : c ∈ m) : Memory.lookup m c.1 = some c.2 := by
  induction m with
  | nil => simp at hc
  | cons d m ih =>
    obtain ⟨hhead, htail⟩ := List.pairwise_cons.mp hm
    rcases List.mem_cons.mp hc with rfl | hc
    · simp [Memory.lookup]
    · have hne : c.1 ≠ d.1 := Nat.ne_of_gt (hhead c hc)
      simpa [Memory.lookup, hne] using ih htail hc

/-! ### The state's memory -/

variable (s : State)

theorem State.memWf_reset : State.reset.memWf := ⟨.nil, by simp [State.reset, State.initial]⟩

theorem State.memWf_storeBytes (h : s.memWf) (a : Nat) (ws : List Byte)
    (ha : a + ws.length ≤ Config.memSize) : (s.storeBytes a ws).memWf :=
  Memory.wf_writeBytes s.fontRom s.mem h a ws ha

/-- A byte read after a store of bytes. -/
theorem State.readByte_storeBytes (h : s.memWf) (a : Nat) (ws : List Byte) (b : Nat) :
    (s.storeBytes a ws).readByte b =
      if a ≤ b then (ws[b - a]?).getD (s.readByte b) else s.readByte b :=
  Memory.read_writeBytes s.fontRom s.mem h.1 a b ws

/-- Outside the stored bytes memory reads as before. -/
theorem State.readByte_storeBytes_outside (h : s.memWf) (a : Nat) (ws : List Byte) (b : Nat)
    (hb : ¬ (a ≤ b ∧ b < a + ws.length)) : (s.storeBytes a ws).readByte b = s.readByte b := by
  rw [State.readByte_storeBytes s h]
  split
  · next hle =>
    have : ws.length ≤ b - a := by omega
    simp [List.getElem?_eq_none this]
  · rfl

end Sys2Proof.Machine
end

