-- ==== Sys2Proof/Laws/Ops.lean ====
section
/-! SUPPORT. What each shared operation can do, said once. -/
namespace Sys2Proof.Machine

variable (s : State)

/-! ### Range checks (R55) -/

/-- A range check passes exactly when every address exists. -/
theorem checkRange_eq_none (a len : Nat) :
    checkRange a len = none ↔ len = 0 ∨ a + len ≤ Config.memSize := by
  induction len generalizing a with
  | zero => simp [checkRange]
  | succ len ih =>
    simp only [checkRange, Config.memSize] at ih ⊢
    split
    · rw [ih]; omega
    · simp; omega

/-- A range check that fails names the first address above 0xFFF. -/
theorem checkRange_eq_some (a len b : Nat) :
    checkRange a len = some b ↔
      0 < len ∧ Config.memSize < a + len ∧ b = max a Config.memSize := by
  induction len generalizing a with
  | zero => simp [checkRange]
  | succ len ih =>
    simp only [checkRange, Config.memSize] at ih ⊢
    split
    · rw [ih]; omega
    · simp only [Option.some.injEq]; omega

theorem guardRange_ok (a len : Nat) (ok : State) (h : len = 0 ∨ a + len ≤ Config.memSize) :
    guardRange s a len ok = .next ok := by
  rw [guardRange, (checkRange_eq_none a len).mpr h]

theorem guardRange_fault (a len : Nat) (ok : State) (h0 : 0 < len)
    (h : Config.memSize < a + len) :
    guardRange s a len ok = .fault (.addressError (s.pc - 2) (max a Config.memSize)) := by
  rw [guardRange, (checkRange_eq_some a len _).mpr ⟨h0, h, rfl⟩]; rfl

/-- A guarded instruction either is its state or faults with AddressError. -/
theorem guardRange_cases (a len : Nat) (ok : State) :
    ((len = 0 ∨ a + len ≤ Config.memSize) ∧ guardRange s a len ok = .next ok) ∨
    (0 < len ∧ Config.memSize < a + len ∧
      guardRange s a len ok = .fault (.addressError (s.pc - 2) (max a Config.memSize))) := by
  by_cases h : len = 0 ∨ a + len ≤ Config.memSize
  · exact .inl ⟨h, guardRange_ok s a len ok h⟩
  · have h1 : 0 < len ∧ Config.memSize < a + len := by omega
    exact .inr ⟨h1.1, h1.2, guardRange_fault s a len ok h1.1 h1.2⟩

/-! ### The call stack (R30, R31) -/

theorem push_ok (a : Word) (rest : State → State) (h : s.sp.val < Config.stackDepth) :
    push s a rest = .next (rest { s with
      stack := s.stack.set s.sp.val a
      sp := ⟨s.sp.val + 1, Nat.succ_lt_succ h⟩ }) := dif_pos h

theorem push_full (a : Word) (rest : State → State) (h : s.sp.val = Config.stackDepth) :
    push s a rest = .fault (.stackOverflow (s.pc - 2) s.sp.val) :=
  dif_neg (by omega)

theorem pop_empty (rest : Word → State → State) (h : s.sp.val = 0) :
    pop s rest = .fault (.stackUnderflow (s.pc - 2) 0) := by
  have hsp : s.sp = ⟨0, by decide⟩ := Fin.ext h
  unfold pop; rw [hsp]; rfl

theorem pop_ok (rest : Word → State → State) (n : Nat) (hn : n < Config.stackDepth)
    (h : s.sp.val = n + 1) :
    pop s rest = .next (rest s.stack[n] { s with sp := ⟨n, Nat.lt_succ_of_lt hn⟩ }) := by
  have hsp : s.sp = ⟨n + 1, Nat.succ_lt_succ hn⟩ := Fin.ext h
  unfold pop; rw [hsp]

/-! ### The key port (R115, R163, R167) -/

theorem withKey_ok (x : Reg) (rest : Bool → State) (h : (s.getV x).toNat < Config.numKeys) :
    withKey x s rest = .next (rest s.key[(s.getV x).toNat]) := dif_pos h

theorem withKey_fault (x : Reg) (rest : Bool → State) (h : Config.numKeys ≤ (s.getV x).toNat) :
    withKey x s rest = .fault (.keyIndexError (s.pc - 2) (s.getV x)) :=
  dif_neg (Nat.not_lt.mpr h)

theorem firstKey_eq_none : s.firstKey = none ↔ ∀ k : Fin Config.numKeys, s.key[k.val] = false := by
  simp [State.firstKey, List.find?_eq_none]

/-- The key Fx0A reads is pressed, and no lower one is. -/
theorem firstKey_eq_some (k : Fin Config.numKeys) :
    s.firstKey = some k ↔ s.key[k.val] = true ∧ ∀ j : Fin Config.numKeys, j < k → s.key[j.val] = false := by
  rw [State.firstKey, List.find?_eq_some_iff_getElem]
  constructor
  · rintro ⟨hk, n, hn, rfl, hlow⟩
    refine ⟨by simpa using hk, fun j hj => ?_⟩
    have := hlow j.val (by simpa [Fin.lt_def] using hj)
    simpa using this
  · rintro ⟨hk, hlow⟩
    refine ⟨by simpa using hk, k.val, by simp, by simp, fun j hj => ?_⟩
    have := hlow ⟨j, by omega⟩ hj
    simpa using this

/-! ### The compositor (R150 to R154) -/

/-- Reading a pixel after one flip. -/
theorem Display.pixel_flip (d : Display) (p q : Pixel) :
    Display.pixel (Display.flip d p) q = (Display.pixel d q ^^ decide (p = q)) := by
  obtain ⟨⟨px, hpx⟩, ⟨py, hpy⟩⟩ := p
  obtain ⟨⟨qx, hqx⟩, ⟨qy, hqy⟩⟩ := q
  have hpx' : px < 64 := hpx
  simp only [Display.pixel, Display.flip]
  by_cases hrow : py = qy
  · subst hrow
    by_cases hcol : px = qx
    · subst hcol; simp [hpx']
    · simp [BitVec.getLsbD_twoPow, hcol]
  · simp [Vector.getElem_set_ne, hrow]

/-- Reading a pixel of the composited display: XOR with how often the sprite names it. -/
theorem blit_pixel (d : Display) (flag : Byte) (ps : List Pixel) (q : Pixel) :
    Display.pixel (blit d flag ps).1 q =
      (Display.pixel d q ^^ decide (ps.count q % 2 = 1)) := by
  induction ps generalizing d flag with
  | nil => simp [blit]
  | cons p ps ih =>
    simp only [blit, ih, Display.pixel_flip, List.count_cons]
    by_cases h : p = q
    · subst h
      rcases Nat.mod_two_eq_zero_or_one (List.count p ps) with h2 | h2 <;>
        simp [h2, Nat.add_mod]
    · simp [h]

/-- A sprite whose pixels are distinct XORs each of them once. -/
theorem blit_pixel_of_nodup (d : Display) (flag : Byte) (ps : List Pixel) (hps : ps.Nodup)
    (q : Pixel) :
    Display.pixel (blit d flag ps).1 q = (Display.pixel d q ^^ decide (q ∈ ps)) := by
  rw [blit_pixel, hps.count]
  split <;> simp_all

/-- The collision flag of a sprite whose pixels are distinct: 1 when one of them was set. -/
theorem blit_flag_of_nodup (d : Display) (flag : Byte) (ps : List Pixel) (hps : ps.Nodup) :
    (blit d flag ps).2 = if ∃ p ∈ ps, Display.pixel d p = true then 1 else flag := by
  induction ps generalizing d flag with
  | nil => simp [blit]
  | cons p ps ih =>
    obtain ⟨hp, hps⟩ := List.nodup_cons.mp hps
    have hsame : ∀ q ∈ ps, Display.pixel (Display.flip d p) q = Display.pixel d q := by
      intro q hq
      have : p ≠ q := fun h => hp (h ▸ hq)
      simp [Display.pixel_flip, this]
    have hex : (∃ q ∈ ps, Display.pixel (Display.flip d p) q = true) ↔
        ∃ q ∈ ps, Display.pixel d q = true :=
      ⟨fun ⟨q, hq, h⟩ => ⟨q, hq, hsame q hq ▸ h⟩, fun ⟨q, hq, h⟩ => ⟨q, hq, (hsame q hq).trans h⟩⟩
    simp only [blit, ih _ _ hps, hex, List.mem_cons, exists_eq_or_imp]
    by_cases h1 : Display.pixel d p = true <;> by_cases h2 : ∃ q ∈ ps, Display.pixel d q = true <;>
      simp [h1, h2]

/-- Which pixels one sprite row names. -/
theorem mem_rowPixels (px py : Nat) (row : Byte) (q : Pixel) :
    q ∈ rowPixels px py row ↔
      ∃ c, c < 8 ∧ row.getLsbD (7 - c) = true ∧ q = wrapPixel (px + c) py := by
  simp only [rowPixels, List.mem_map, List.mem_filter, List.mem_range]
  constructor
  · rintro ⟨c, ⟨hc, hb⟩, rfl⟩; exact ⟨c, hc, hb, rfl⟩
  · rintro ⟨c, hc, hb, rfl⟩; exact ⟨c, ⟨hc, hb⟩, rfl⟩

/-- Which pixels a sprite names: bit 7 − c of row r is column px + c, row py + r, each wrapped. -/
theorem mem_spritePixels (px py : Nat) (rows : List Byte) (q : Pixel) :
    q ∈ spritePixels px py rows ↔
      ∃ r c, ∃ h : r < rows.length, c < 8 ∧ (rows[r]).getLsbD (7 - c) = true ∧
        q = wrapPixel (px + c) (py + r) := by
  induction rows generalizing py with
  | nil => simp [spritePixels]
  | cons row rows ih =>
    simp only [spritePixels, List.mem_append, mem_rowPixels, ih]
    constructor
    · rintro (⟨c, hc, hb, rfl⟩ | ⟨r, c, hr, hc, hb, rfl⟩)
      · exact ⟨0, c, by simp, hc, by simpa using hb, rfl⟩
      · refine ⟨r + 1, c, by simpa using hr, hc, by simpa using hb, ?_⟩
        congr 1; omega
    · rintro ⟨r, c, hr, hc, hb, rfl⟩
      cases r with
      | zero => exact .inl ⟨c, hc, by simpa using hb, rfl⟩
      | succ r =>
        refine .inr ⟨r, c, by simpa using hr, hc, by simpa using hb, ?_⟩
        congr 1; omega

theorem nodup_rowPixels (px py : Nat) (row : Byte) : (rowPixels px py row).Nodup := by
  refine List.Nodup.map_on ?_ (List.Nodup.filter _ List.nodup_range)
  intro a ha b hb hab
  simp only [List.mem_filter, List.mem_range, Config.spriteW] at ha hb
  simp only [wrapPixel, Prod.mk.injEq, Fin.mk.injEq, Config.dispW] at hab
  omega

/-- The pixels of a sprite of at most 32 rows are distinct, even after wrapping (R154). -/
theorem nodup_spritePixels (px py : Nat) (rows : List Byte) (h : rows.length ≤ 32) :
    (spritePixels px py rows).Nodup := by
  induction rows generalizing py with
  | nil => simp [spritePixels]
  | cons row rows ih =>
    simp only [List.length_cons] at h
    refine List.Nodup.append (nodup_rowPixels px py row) (ih (py + 1) (by omega)) ?_
    intro q hq hq'
    obtain ⟨c, hc, -, rfl⟩ := (mem_rowPixels _ _ _ _).mp hq
    obtain ⟨r, c', hr, hc', -, he⟩ := (mem_spritePixels _ _ _ _).mp hq'
    simp only [wrapPixel, Prod.mk.injEq, Fin.mk.injEq, Config.dispW, Config.dispH] at he
    omega

@[simp] theorem length_readBytes (a len : Nat) : (s.readBytes a len).length = len := by
  simp [State.readBytes]

@[simp] theorem getElem_readBytes (a len r : Nat) (h : r < (s.readBytes a len).length) :
    (s.readBytes a len)[r] = s.readByte (a + r) := by
  simp [State.readBytes]

/-- The pixels of a Dxyn of at most 32 rows are distinct. -/
theorem nodup_drawPixels (x y : Reg) (n : Nat) (h : n ≤ 32) : (drawPixels x y n s).Nodup :=
  nodup_spritePixels _ _ _ (by simpa [spriteRows] using h)

/-- Which pixels a Dxyn touches (R151, R152). -/
theorem mem_drawPixels (x y : Reg) (n : Nat) (q : Pixel) :
    q ∈ drawPixels x y n s ↔
      ∃ r c, r < n ∧ c < 8 ∧ (s.readByte (indexAddress s r)).getLsbD (7 - c) = true ∧
        q = wrapPixel ((s.getV x).toNat + c) ((s.getV y).toNat + r) := by
  rw [drawPixels, mem_spritePixels]
  simp only [spriteRows, indexAddress, getElem_readBytes, length_readBytes, Nat.add_zero]
  exact ⟨fun ⟨r, c, hr, hc, hb, e⟩ => ⟨r, c, hr, hc, hb, e⟩,
    fun ⟨r, c, hr, hc, hb, e⟩ => ⟨r, c, hr, hc, hb, e⟩⟩

/-! ### Timers (R160) -/

theorem countDown_toNat (b : Byte) : (countDown b).toNat = b.toNat - 1 := by
  unfold countDown
  split
  · next h =>
    have hb : b.toNat ≠ 0 := fun e => h (BitVec.eq_of_toNat_eq (by simpa using e))
    have := b.isLt
    rw [BitVec.toNat_sub]
    have h1 : (1 : Byte).toNat = 1 := rfl
    omega
  · next h =>
    have hb : b = 0 := not_not.mp h
    simp [hb]

@[simp] theorem countDownBy_zero (b : Byte) : countDownBy 0 b = b := by
  simp [countDownBy]

theorem countDownBy_succ (n : Nat) (b : Byte) :
    countDownBy n (countDown b) = countDownBy (n + 1) b := by
  simp only [countDownBy, countDown_toNat]
  congr 1; omega

/-! ### The flags -/

/-- The flag is written first, and the result reads the registers that write left (R119). -/
theorem flagThenResult_spec (x y : Reg) (flag result : Byte → Byte → Byte) (r : Reg) :
    (flagThenResult x y flag result s).getV r =
      let f := flag (s.getV x) (s.getV y)
      if r = x then result (if x = vF then f else s.getV x) (if y = vF then f else s.getV y)
      else if r = vF then f else s.getV r := by
  simp [flagThenResult, State.getV_setV]

end Sys2Proof.Machine
end

