-- ==== Sys2Proof/Laws/Step.lean ====
section
/-! SUPPORT. What a step can do, said once: every later proof about a step cites one of these. -/
namespace Sys2Proof.Machine

variable (s : State)

/-- What fetch answers: the two bytes joined, or the first address of the two that does not exist. -/
theorem fetch_eq_ok (w : Word) :
    fetch s = .ok w ↔
      s.pc.toNat + 1 < Config.memSize ∧
        w = joinBytes (s.readByte s.pc.toNat) (s.readByte (s.pc.toNat + 1)) := by
  unfold fetch
  split
  · next h =>
    have := (checkRange_eq_none _ _).mp h
    simp only [Config.insnBytes, Config.memSize] at this ⊢
    simp only [Except.ok.injEq]
    constructor
    · rintro rfl; exact ⟨by omega, rfl⟩
    · rintro ⟨-, rfl⟩; rfl
  · next bad h =>
    have := (checkRange_eq_some _ _ _).mp h
    simp only [Config.insnBytes, Config.memSize] at this ⊢
    simp; omega

theorem fetch_eq_error (bad : Nat) :
    fetch s = .error bad ↔
      Config.memSize ≤ s.pc.toNat + 1 ∧ bad = max s.pc.toNat Config.memSize := by
  unfold fetch
  split
  · next h =>
    have := (checkRange_eq_none _ _).mp h
    simp only [Config.insnBytes, Config.memSize] at this ⊢
    simp; omega
  · next b h =>
    have := (checkRange_eq_some _ _ _).mp h
    simp only [Config.insnBytes, Config.memSize] at this ⊢
    simp only [Except.error.injEq]
    omega

/-- `joinBytes` puts a word's two bytes together again. -/
@[simp] theorem joinBytes_hi_lo (w : Word) : joinBytes (hiByte w) (loByte w) = w := by
  apply BitVec.eq_of_getLsbD_eq
  intro i hi
  simp only [joinBytes, hiByte, loByte, BitVec.getLsbD_append, BitVec.getLsbD_extractLsb']
  by_cases h : i < 8
  · simp [h]
  · have h1 : i - 8 < 8 := by omega
    have h2 : 8 + (i - 8) = i := by omega
    simp [h, h1, h2]

/-- The word a state fetches, in the terms of `State.fetches`. -/
theorem fetch_of_fetches (w : Word) (h : s.fetches w) : s.phase = .loaded ∧ fetch s = .ok w := by
  obtain ⟨hp, hpc, hhi, hlo⟩ := h
  refine ⟨hp, (fetch_eq_ok s w).mpr ⟨hpc, ?_⟩⟩
  rw [hhi, hlo, joinBytes_hi_lo]

/-- The bytes of a joined word. -/
@[simp] theorem hiByte_joinBytes (hi lo : Byte) : hiByte (joinBytes hi lo) = hi := by
  apply BitVec.eq_of_getLsbD_eq
  intro i h
  simp only [hiByte, joinBytes, BitVec.getLsbD_extractLsb', h, decide_true, Bool.true_and]
  exact (BitVec.getLsbD_append (x := hi) (y := lo) (i := 8 + i)).trans (by simp)

@[simp] theorem loByte_joinBytes (hi lo : Byte) : loByte (joinBytes hi lo) = lo := by
  apply BitVec.eq_of_getLsbD_eq
  intro i h
  simp only [loByte, joinBytes, BitVec.getLsbD_extractLsb', h, decide_true, Bool.true_and]
  exact (BitVec.getLsbD_append (x := hi) (y := lo) (i := 0 + i)).trans (by simp [h])

/-- `State.executes` in the terms of fetch and decode. -/
theorem executes_iff (i : Instr) :
    s.executes i ↔ s.phase = .loaded ∧ ∃ w, fetch s = .ok w ∧ decodeWord w = .ok i := by
  constructor
  · rintro ⟨w, hw, hi⟩
    obtain ⟨hp, hf⟩ := fetch_of_fetches s w hw
    exact ⟨hp, w, hf, hi⟩
  · rintro ⟨hp, w, hf, hi⟩
    obtain ⟨hpc, rfl⟩ := (fetch_eq_ok s w).mp hf
    exact ⟨_, ⟨hp, hpc, (hiByte_joinBytes ..).symm, (loByte_joinBytes ..).symm⟩, hi⟩

theorem step_of_fetch_error (bad : Nat) (hp : s.phase = .loaded) (hf : fetch s = .error bad) :
    step s = .fault (.addressError s.pc bad) := by
  simp [step, stepWithOutcome, hp, hf]

theorem step_of_decode_error (w : Word) (r : Reject) (hp : s.phase = .loaded)
    (hf : fetch s = .ok w) (hd : decodeWord w = .error r) :
    step s = .fault (.decodeError s.pc w) := by
  simp [step, stepWithOutcome, hp, hf, hd]

/-- Everything a step that answers a next state has done (R80). -/
theorem stepWithOutcome_next (t : State) (o : StepOutcome)
    (h : stepWithOutcome s = .next (t, o)) :
    s.phase = .loaded ∧ ∃ w i u, fetch s = .ok w ∧ decodeWord w = .ok i ∧
      exec i s.advance = .next u ∧ t = u.tick ∧ o = stepOutcome i u := by
  unfold stepWithOutcome at h
  split at h
  · simp at h
  · next hp =>
    split at h
    · simp at h
    · next w hw =>
      split at h
      · simp at h
      · next i hi =>
        split at h
        · next u hu =>
          simp only [commit, Host.Outcome.next.injEq, Prod.mk.injEq] at h
          exact ⟨hp, w, i, u, hw, hi, hu, h.1.symm, h.2.symm⟩
        · simp at h
        · simp at h

/-- Everything a step that answers a next state has done (R80), without its outcome. -/
theorem step_next (t : State) (h : step s = .next t) :
    s.phase = .loaded ∧ ∃ w i u, fetch s = .ok w ∧ decodeWord w = .ok i ∧
      exec i s.advance = .next u ∧ t = u.tick := by
  unfold step at h
  split at h
  · next t' o ho =>
    simp only [Host.Outcome.next.injEq] at h
    obtain ⟨hp, w, i, u, hw, hi, hu, ht, -⟩ := stepWithOutcome_next s t' o ho
    exact ⟨hp, w, i, u, hw, hi, hu, h ▸ ht⟩
  · simp at h
  · simp at h

/-- How a step comes to fault: at fetch, at decode or in execution (R174). -/
theorem step_fault (f : Fault) (h : step s = .fault f) :
    s.phase = .loaded ∧
      ((∃ bad, fetch s = .error bad ∧ f = .addressError s.pc bad) ∨
       (∃ w r, fetch s = .ok w ∧ decodeWord w = .error r ∧ f = .decodeError s.pc w) ∨
       (∃ w i, fetch s = .ok w ∧ decodeWord w = .ok i ∧ exec i s.advance = .fault f)) := by
  unfold step stepWithOutcome at h
  cases hp : s.phase with
  | init => simp [hp] at h
  | loaded =>
    refine ⟨rfl, ?_⟩
    simp only [hp] at h
    cases hw : fetch s with
    | error bad => simp [hw] at h; exact .inl ⟨bad, rfl, h.symm⟩
    | ok w =>
      simp only [hw] at h
      cases hi : decodeWord w with
      | error r => simp [hi] at h; exact .inr (.inl ⟨w, r, rfl, hi, h.symm⟩)
      | ok i =>
        simp only [hi] at h
        refine .inr (.inr ⟨w, i, rfl, hi, ?_⟩)
        cases he : exec i s.advance with
        | next u => simp [he, commit] at h
        | fault g => simp [he] at h; rw [h]
        | refused r => simp [he] at h

end Sys2Proof.Machine
end

