-- ==== Sys2Proof/Laws/Host.lean ====
section
/-! SUPPORT. What each operation of the host can do, said once. -/
namespace Sys2Proof.Machine

variable (s : State)

theorem loadProgram_ok (bytes : List Byte) (hp : s.phase = .init)
    (h : bytes.length ≤ Config.progMax) :
    loadProgram bytes s = .next { s.storeBytes Config.progBase bytes with phase := .loaded } := by
  simp [loadProgram, hp, Nat.not_lt.mpr h]

theorem loadProgram_next (bytes : List Byte) (t : State) (h : loadProgram bytes s = .next t) :
    s.phase = .init ∧ bytes.length ≤ Config.progMax ∧
      t = { s.storeBytes Config.progBase bytes with phase := .loaded } := by
  unfold loadProgram at h
  split at h
  · simp at h
  · next hp =>
    split at h
    · simp at h
    · next hl => exact ⟨hp, Nat.not_lt.mp hl, by simpa using h.symm⟩

theorem skip_next (t : State) (h : skip s = .next t) :
    s.phase = .loaded ∧ t = s.advance.tick := by
  unfold skip at h
  split at h
  · simp at h
  · next hp => exact ⟨hp, by simpa using h.symm⟩

theorem setKey_next (index : Nat) (pressed : Bool) (t : State)
    (h : setKey index pressed s = .next t) :
    ∃ hi : index < Config.numKeys, t = { s with key := s.key.set index pressed } := by
  unfold setKey at h
  split at h
  · next hi => exact ⟨hi, by simpa using h.symm⟩
  · simp at h

end Sys2Proof.Machine
end

