-- ==== Sys2Proof/Laws/PerInstr.lean ====
section
/-! SUPPORT. The family EncodedInRow: the word of an instruction matches the row of the opcode map that
bears its mnemonic (`30_encoding.md` R85), one lemma per constructor. -/
namespace Sys2Proof.Laws.EncodedInRow

/-- The word of `i` matches a row of R85, and that row is the one of its mnemonic. -/
def Statement (i : Instr) : Prop :=
  ∃ r ∈ opcodeMap, r.mnemonic = i.mnemonic ∧ r.matchesWord (encodeWord i) = true

/-- A row found in the map settles the statement. -/
theorem of_row (i : Instr) (r : OpcodeRow) (hr : r ∈ opcodeMap) (hm : r.mnemonic = i.mnemonic)
    (hw : encodeWord i &&& r.mask = r.value) : Statement i :=
  ⟨r, hr, hm, decide_eq_true hw⟩

theorem cls : Statement .cls :=
  of_row _ ⟨"CLS", 0xFFFF, 0x00E0⟩ (by simp [opcodeMap, opcodeMapLow, opcodeMapHigh]) rfl
    (by decide)

theorem ret : Statement .ret :=
  of_row _ ⟨"RET", 0xFFFF, 0x00EE⟩ (by simp [opcodeMap, opcodeMapLow, opcodeMapHigh]) rfl
    (by decide)

theorem jp (nnn : Addr) : Statement (.jp nnn) :=
  of_row _ ⟨"JP_addr", 0xF000, 0x1000⟩ (by simp [opcodeMap, opcodeMapLow, opcodeMapHigh]) rfl
    ((wordA_and_mask ..).trans (by decide))

theorem call (nnn : Addr) : Statement (.call nnn) :=
  of_row _ ⟨"CALL_addr", 0xF000, 0x2000⟩ (by simp [opcodeMap, opcodeMapLow, opcodeMapHigh]) rfl
    ((wordA_and_mask ..).trans (by decide))

theorem seImm (x : Reg) (kk : Byte) : Statement (.seImm x kk) :=
  of_row _ ⟨"SE_Vx__byte", 0xF000, 0x3000⟩ (by simp [opcodeMap, opcodeMapLow, opcodeMapHigh]) rfl
    ((wordRI_and_mask ..).trans (by decide))

theorem sneImm (x : Reg) (kk : Byte) : Statement (.sneImm x kk) :=
  of_row _ ⟨"SNE_Vx__byte", 0xF000, 0x4000⟩ (by simp [opcodeMap, opcodeMapLow, opcodeMapHigh]) rfl
    ((wordRI_and_mask ..).trans (by decide))

theorem seReg (x y : Reg) : Statement (.seReg x y) :=
  of_row _ ⟨"SE_Vx__Vy", 0xF00F, 0x5000⟩ (by simp [opcodeMap, opcodeMapLow, opcodeMapHigh]) rfl
    ((wordRRN_and_nibble_mask ..).trans (by decide))

theorem ldImm (x : Reg) (kk : Byte) : Statement (.ldImm x kk) :=
  of_row _ ⟨"LD_Vx__byte", 0xF000, 0x6000⟩ (by simp [opcodeMap, opcodeMapLow, opcodeMapHigh]) rfl
    ((wordRI_and_mask ..).trans (by decide))

theorem addImm (x : Reg) (kk : Byte) : Statement (.addImm x kk) :=
  of_row _ ⟨"ADD_Vx__byte", 0xF000, 0x7000⟩ (by simp [opcodeMap, opcodeMapLow, opcodeMapHigh]) rfl
    ((wordRI_and_mask ..).trans (by decide))

theorem ldReg (x y : Reg) : Statement (.ldReg x y) :=
  of_row _ ⟨"LD_Vx__Vy", 0xF00F, 0x8000⟩ (by simp [opcodeMap, opcodeMapLow, opcodeMapHigh]) rfl
    ((wordRRN_and_nibble_mask ..).trans (by decide))

theorem orReg (x y : Reg) : Statement (.orReg x y) :=
  of_row _ ⟨"OR_Vx__Vy", 0xF00F, 0x8001⟩ (by simp [opcodeMap, opcodeMapLow, opcodeMapHigh]) rfl
    ((wordRRN_and_nibble_mask ..).trans (by decide))

theorem andReg (x y : Reg) : Statement (.andReg x y) :=
  of_row _ ⟨"AND_Vx__Vy", 0xF00F, 0x8002⟩ (by simp [opcodeMap, opcodeMapLow, opcodeMapHigh]) rfl
    ((wordRRN_and_nibble_mask ..).trans (by decide))

theorem xorReg (x y : Reg) : Statement (.xorReg x y) :=
  of_row _ ⟨"XOR_Vx__Vy", 0xF00F, 0x8003⟩ (by simp [opcodeMap, opcodeMapLow, opcodeMapHigh]) rfl
    ((wordRRN_and_nibble_mask ..).trans (by decide))

theorem addReg (x y : Reg) : Statement (.addReg x y) :=
  of_row _ ⟨"ADD_Vx__Vy", 0xF00F, 0x8004⟩ (by simp [opcodeMap, opcodeMapLow, opcodeMapHigh]) rfl
    ((wordRRN_and_nibble_mask ..).trans (by decide))

theorem subReg (x y : Reg) : Statement (.subReg x y) :=
  of_row _ ⟨"SUB_Vx__Vy", 0xF00F, 0x8005⟩ (by simp [opcodeMap, opcodeMapLow, opcodeMapHigh]) rfl
    ((wordRRN_and_nibble_mask ..).trans (by decide))

theorem shr (x y : Reg) : Statement (.shr x y) :=
  of_row _ ⟨"SHR_Vx__Vy", 0xF00F, 0x8006⟩ (by simp [opcodeMap, opcodeMapLow, opcodeMapHigh]) rfl
    ((wordRRN_and_nibble_mask ..).trans (by decide))

theorem subnReg (x y : Reg) : Statement (.subnReg x y) :=
  of_row _ ⟨"SUBN_Vx__Vy", 0xF00F, 0x8007⟩ (by simp [opcodeMap, opcodeMapLow, opcodeMapHigh]) rfl
    ((wordRRN_and_nibble_mask ..).trans (by decide))

theorem shl (x y : Reg) : Statement (.shl x y) :=
  of_row _ ⟨"SHL_Vx__Vy", 0xF00F, 0x800E⟩ (by simp [opcodeMap, opcodeMapLow, opcodeMapHigh]) rfl
    ((wordRRN_and_nibble_mask ..).trans (by decide))

theorem sneReg (x y : Reg) : Statement (.sneReg x y) :=
  of_row _ ⟨"SNE_Vx__Vy", 0xF00F, 0x9000⟩ (by simp [opcodeMap, opcodeMapLow, opcodeMapHigh]) rfl
    ((wordRRN_and_nibble_mask ..).trans (by decide))

theorem ldI (nnn : Addr) : Statement (.ldI nnn) :=
  of_row _ ⟨"LD_I__addr", 0xF000, 0xA000⟩ (by simp [opcodeMap, opcodeMapLow, opcodeMapHigh]) rfl
    ((wordA_and_mask ..).trans (by decide))

theorem jpV0 (nnn : Addr) : Statement (.jpV0 nnn) :=
  of_row _ ⟨"JP_V0__addr", 0xF000, 0xB000⟩ (by simp [opcodeMap, opcodeMapLow, opcodeMapHigh]) rfl
    ((wordA_and_mask ..).trans (by decide))

theorem rnd (x : Reg) (kk : Byte) : Statement (.rnd x kk) :=
  of_row _ ⟨"RND_Vx__byte", 0xF000, 0xC000⟩ (by simp [opcodeMap, opcodeMapLow, opcodeMapHigh]) rfl
    ((wordRI_and_mask ..).trans (by decide))

theorem drw (x y : Reg) (n : Nat) : Statement (.drw x y n) :=
  of_row _ ⟨"DRW_Vx__Vy__nibble", 0xF000, 0xD000⟩ (by simp [opcodeMap, opcodeMapLow, opcodeMapHigh]) rfl
    ((wordRRN_and_mask ..).trans (by decide))

theorem skp (x : Reg) : Statement (.skp x) :=
  of_row _ ⟨"SKP_Vx", 0xF0FF, 0xE09E⟩ (by simp [opcodeMap, opcodeMapLow, opcodeMapHigh]) rfl
    ((wordRI_and_byte_mask ..).trans (by decide))

theorem sknp (x : Reg) : Statement (.sknp x) :=
  of_row _ ⟨"SKNP_Vx", 0xF0FF, 0xE0A1⟩ (by simp [opcodeMap, opcodeMapLow, opcodeMapHigh]) rfl
    ((wordRI_and_byte_mask ..).trans (by decide))

theorem ldVxDt (x : Reg) : Statement (.ldVxDt x) :=
  of_row _ ⟨"LD_Vx__DT", 0xF0FF, 0xF007⟩ (by simp [opcodeMap, opcodeMapLow, opcodeMapHigh]) rfl
    ((wordRI_and_byte_mask ..).trans (by decide))

theorem ldVxK (x : Reg) : Statement (.ldVxK x) :=
  of_row _ ⟨"LD_Vx__K", 0xF0FF, 0xF00A⟩ (by simp [opcodeMap, opcodeMapLow, opcodeMapHigh]) rfl
    ((wordRI_and_byte_mask ..).trans (by decide))

theorem ldDtVx (x : Reg) : Statement (.ldDtVx x) :=
  of_row _ ⟨"LD_DT__Vx", 0xF0FF, 0xF015⟩ (by simp [opcodeMap, opcodeMapLow, opcodeMapHigh]) rfl
    ((wordRI_and_byte_mask ..).trans (by decide))

theorem ldStVx (x : Reg) : Statement (.ldStVx x) :=
  of_row _ ⟨"LD_ST__Vx", 0xF0FF, 0xF018⟩ (by simp [opcodeMap, opcodeMapLow, opcodeMapHigh]) rfl
    ((wordRI_and_byte_mask ..).trans (by decide))

theorem addIVx (x : Reg) : Statement (.addIVx x) :=
  of_row _ ⟨"ADD_I__Vx", 0xF0FF, 0xF01E⟩ (by simp [opcodeMap, opcodeMapLow, opcodeMapHigh]) rfl
    ((wordRI_and_byte_mask ..).trans (by decide))

theorem ldFVx (x : Reg) : Statement (.ldFVx x) :=
  of_row _ ⟨"LD_F__Vx", 0xF0FF, 0xF029⟩ (by simp [opcodeMap, opcodeMapLow, opcodeMapHigh]) rfl
    ((wordRI_and_byte_mask ..).trans (by decide))

theorem ldBVx (x : Reg) : Statement (.ldBVx x) :=
  of_row _ ⟨"LD_B__Vx", 0xF0FF, 0xF033⟩ (by simp [opcodeMap, opcodeMapLow, opcodeMapHigh]) rfl
    ((wordRI_and_byte_mask ..).trans (by decide))

theorem storeRegs (x : Reg) : Statement (.storeRegs x) :=
  of_row _ ⟨"LD__I___Vx", 0xF0FF, 0xF055⟩ (by simp [opcodeMap, opcodeMapLow, opcodeMapHigh]) rfl
    ((wordRI_and_byte_mask ..).trans (by decide))

theorem loadRegs (x : Reg) : Statement (.loadRegs x) :=
  of_row _ ⟨"LD_Vx___I", 0xF0FF, 0xF065⟩ (by simp [opcodeMap, opcodeMapLow, opcodeMapHigh]) rfl
    ((wordRI_and_byte_mask ..).trans (by decide))

end Sys2Proof.Laws.EncodedInRow
end

