-- ==== Sys2Proof/Machine/Asm.lean ====
section
/-! DEFINITION. The assembler notation of the spec (`30_encoding.md` R90, D29): how an instruction is
spelled, and the lines of a program, with labels and raw bytes. It is notation only: nothing in the machine
reads it (log 15). -/
namespace Sys2Proof

/-- A hexadecimal digit. -/
def hexDigit (n : Nat) : String :=
  match n with
  | 0 => "0" | 1 => "1" | 2 => "2" | 3 => "3" | 4 => "4" | 5 => "5" | 6 => "6" | 7 => "7"
  | 8 => "8" | 9 => "9" | 10 => "A" | 11 => "B" | 12 => "C" | 13 => "D" | 14 => "E" | _ => "F"

/-- A number in hexadecimal with a `0x` prefix, in the given count of digits (R90). -/
def hexNumber (digits n : Nat) : String :=
  let rec go : Nat → Nat → String
    | 0, _ => ""
    | k + 1, n => go k (n / 16) ++ hexDigit (n % 16)
  "0x" ++ go digits n

/-- "Registers are `V0` to `VF`" (R90). -/
def asmReg (x : Reg) : String := "V" ++ hexDigit x.val

/-- "`addr` is a 12-bit number 0x000–0xFFF" (R90). -/
def asmAddr (nnn : Addr) : String := hexNumber 3 nnn.toNat

/-- "`byte` is 0x00–0xFF" (R90). -/
def asmByte (kk : Byte) : String := hexNumber 2 kk.toNat

/-- A mnemonic with two operands. -/
def asm2 (name first second : String) : String := name ++ " " ++ first ++ ", " ++ second

/-- The instruction in the syntax of R85 and R90. -/
def Instr.asm : Instr → String
  | .cls => "CLS"
  | .ret => "RET"
  | .jp nnn => "JP " ++ asmAddr nnn
  | .call nnn => "CALL " ++ asmAddr nnn
  | .seImm x kk => asm2 "SE" (asmReg x) (asmByte kk)
  | .sneImm x kk => asm2 "SNE" (asmReg x) (asmByte kk)
  | .seReg x y => asm2 "SE" (asmReg x) (asmReg y)
  | .ldImm x kk => asm2 "LD" (asmReg x) (asmByte kk)
  | .addImm x kk => asm2 "ADD" (asmReg x) (asmByte kk)
  | .ldReg x y => asm2 "LD" (asmReg x) (asmReg y)
  | .orReg x y => asm2 "OR" (asmReg x) (asmReg y)
  | .andReg x y => asm2 "AND" (asmReg x) (asmReg y)
  | .xorReg x y => asm2 "XOR" (asmReg x) (asmReg y)
  | .addReg x y => asm2 "ADD" (asmReg x) (asmReg y)
  | .subReg x y => asm2 "SUB" (asmReg x) (asmReg y)
  | .shr x y => asm2 "SHR" (asmReg x) (asmReg y)
  | .subnReg x y => asm2 "SUBN" (asmReg x) (asmReg y)
  | .shl x y => asm2 "SHL" (asmReg x) (asmReg y)
  | .sneReg x y => asm2 "SNE" (asmReg x) (asmReg y)
  | .ldI nnn => asm2 "LD" "I" (asmAddr nnn)
  | .jpV0 nnn => asm2 "JP" "V0" (asmAddr nnn)
  | .rnd x kk => asm2 "RND" (asmReg x) (asmByte kk)
  | .drw x y n => asm2 "DRW" (asmReg x) (asmReg y) ++ ", " ++ hexNumber 1 n
  | .skp x => "SKP " ++ asmReg x
  | .sknp x => "SKNP " ++ asmReg x
  | .ldVxDt x => asm2 "LD" (asmReg x) "DT"
  | .ldVxK x => asm2 "LD" (asmReg x) "K"
  | .ldDtVx x => asm2 "LD" "DT" (asmReg x)
  | .ldStVx x => asm2 "LD" "ST" (asmReg x)
  | .addIVx x => asm2 "ADD" "I" (asmReg x)
  | .ldFVx x => asm2 "LD" "F" (asmReg x)
  | .ldBVx x => asm2 "LD" "B" (asmReg x)
  | .storeRegs x => asm2 "LD" "[I]" (asmReg x)
  | .loadRegs x => asm2 "LD" (asmReg x) "[I]"

/-- A line of a program: "a `label:` prefix binds the label to the address of the next instruction, and
`DB b0, b1, ...` places raw bytes" (R90). -/
inductive AsmLine where
  | label (name : String)
  | code (i : Instr)
  | db (bytes : List Byte)
  deriving DecidableEq, Repr

/-- The bytes a line places. -/
def AsmLine.bytes : AsmLine → List Byte
  | .label _ => []
  | .code i => encode i
  | .db bytes => bytes

/-- The image of a program: the bytes its lines place, one line after another. -/
def assemble (lines : List AsmLine) : List Byte := lines.flatMap AsmLine.bytes

/-- The address a label is bound to in a program that starts at `start`: that of the next byte placed. -/
def labelAddress (start : Nat) (name : String) : List AsmLine → Option Nat
  | [] => none
  | line :: rest =>
    if line = .label name then some start
    else labelAddress (start + line.bytes.length) name rest

end Sys2Proof
end

