-- ==== Sys2Proof/Tests/Slice0.lean ====
section
/-! SUPPORT. The model's own tests. Expected results are those of `spec/95_test_vectors.md`, whose row is
named at each test (S, CF, SK, AL, ME, DS, TM, HO), or are worked by hand from the rule named. The
witnesses at the end meet the hypotheses of the obligations. -/
namespace Sys2Proof.Tests

open Sys2Proof Sys2Proof.Machine

/-! ### Helpers -/

/-- The core after `initialize()` and a load of nothing. -/
def base : State := { State.reset with phase := .loaded }

/-- Registers set one after another. -/
def withV (s : State) (l : List (Reg × Byte)) : State := l.foldl (fun t p => t.setV p.1 p.2) s

/-- The step that runs the word w at PC, and its outcome. -/
def run1 (s : State) (w : Word) : Host.Outcome (State × StepOutcome) Fault Refusal :=
  stepWithOutcome (s.withFetchWord 16 w.toNat)

/-- An operation's answer, with the outcome of a step that reports nothing beside a next state. -/
def plain (o : Result) : Host.Outcome (State × StepOutcome) Fault Refusal :=
  match o with
  | .next t => .next (t, ⟨false, false⟩)
  | .fault f => .fault f
  | .refused r => .refused r

/-- The step answered a next state with this property. -/
def ok (o : Host.Outcome (State × StepOutcome) Fault Refusal) (p : State → StepOutcome → Bool) : Bool :=
  match o with
  | .next (t, out) => p t out
  | .fault _ => false
  | .refused _ => false

/-- The step answered this fault. -/
def faulted (o : Host.Outcome (State × StepOutcome) Fault Refusal) (f : Fault) : Bool :=
  match o with
  | .next _ => false
  | .fault g => g == f
  | .refused _ => false

/-- The operation answered this refusal. -/
def refusedWith (o : Result) (r : Refusal) : Bool :=
  match o with
  | .next _ => false
  | .fault _ => false
  | .refused q => q == r

/-! ### Well-formedness and decoding -/

/-- R83: "n is a 4-bit unsigned count 0..15", so a count of 16 is refused and 15 is not. -/
theorem test_wellFormed_refuses_sixteen_rows :
    (Instr.drw 1 2 16).wellFormed = false ∧ (Instr.drw 1 2 15).wellFormed = true := by decide

/-- R85 rows 1 to 7 and 19, 21, 24, 25: words written from the patterns. -/
theorem test_decode_control_and_skips :
    decodeWord 0x00E0 = .ok .cls ∧ decodeWord 0x00EE = .ok .ret ∧
    decodeWord 0x1ABC = .ok (.jp 0xABC) ∧ decodeWord 0x2ABC = .ok (.call 0xABC) ∧
    decodeWord 0x3A4F = .ok (.seImm 0xA 0x4F) ∧ decodeWord 0x4A4F = .ok (.sneImm 0xA 0x4F) ∧
    decodeWord 0x5AB0 = .ok (.seReg 0xA 0xB) ∧ decodeWord 0x9AB0 = .ok (.sneReg 0xA 0xB) ∧
    decodeWord 0xBABC = .ok (.jpV0 0xABC) ∧ decodeWord 0xEA9E = .ok (.skp 0xA) ∧
    decodeWord 0xEAA1 = .ok (.sknp 0xA) := by decide

/-- R85 rows 8 to 18 and 22. -/
theorem test_decode_registers :
    decodeWord 0x6A4F = .ok (.ldImm 0xA 0x4F) ∧ decodeWord 0x7A4F = .ok (.addImm 0xA 0x4F) ∧
    decodeWord 0x8AB0 = .ok (.ldReg 0xA 0xB) ∧ decodeWord 0x8AB1 = .ok (.orReg 0xA 0xB) ∧
    decodeWord 0x8AB2 = .ok (.andReg 0xA 0xB) ∧ decodeWord 0x8AB3 = .ok (.xorReg 0xA 0xB) ∧
    decodeWord 0x8AB4 = .ok (.addReg 0xA 0xB) ∧ decodeWord 0x8AB5 = .ok (.subReg 0xA 0xB) ∧
    decodeWord 0x8AB6 = .ok (.shr 0xA 0xB) ∧ decodeWord 0x8AB7 = .ok (.subnReg 0xA 0xB) ∧
    decodeWord 0x8ABE = .ok (.shl 0xA 0xB) ∧ decodeWord 0xCA4F = .ok (.rnd 0xA 0x4F) := by decide

/-- R85 rows 20, 23 and 26 to 34. -/
theorem test_decode_index_display_timers :
    decodeWord 0xAABC = .ok (.ldI 0xABC) ∧ decodeWord 0xDAB5 = .ok (.drw 0xA 0xB 5) ∧
    decodeWord 0xFA07 = .ok (.ldVxDt 0xA) ∧ decodeWord 0xFA0A = .ok (.ldVxK 0xA) ∧
    decodeWord 0xFA15 = .ok (.ldDtVx 0xA) ∧ decodeWord 0xFA18 = .ok (.ldStVx 0xA) ∧
    decodeWord 0xFA1E = .ok (.addIVx 0xA) ∧ decodeWord 0xFA29 = .ok (.ldFVx 0xA) ∧
    decodeWord 0xFA33 = .ok (.ldBVx 0xA) ∧ decodeWord 0xFA55 = .ok (.storeRegs 0xA) ∧
    decodeWord 0xFA65 = .ok (.loadRegs 0xA) := by decide

/-- The illegal words of S10, SK5, SK13, AL35, DS9 and TM11, and too few bytes (R89). -/
theorem test_decode_rejects :
    decodeWord 0x00FF = .error (.illegal 0x00FF) ∧ decodeWord 0x5121 = .error (.illegal 0x5121) ∧
    decodeWord 0xE09F = .error (.illegal 0xE09F) ∧ decodeWord 0x8128 = .error (.illegal 0x8128) ∧
    decodeWord 0x01E0 = .error (.illegal 0x01E0) ∧ decodeWord 0xF0FF = .error (.illegal 0xF0FF) ∧
    decode [0x12] = .error .truncated := by decide

/-- R57, R81: the first byte is the high one; the next instruction's bytes are left. -/
theorem test_decode_bytes : decode [0xD1, 0x25, 0x83] = .ok (.drw 1 2 5, [0x83]) := by decide

theorem test_encode_bytes : encode (.drw 1 2 5) = [0xD1, 0x25] := by decide

/-- `opcode_table.json` gives every row 16 bits, bit 0 the least significant. -/
theorem test_decodeTableWord :
    decodeTableWord 16 0xF265 = some (.loadRegs 2) ∧ decodeTableWord 16 0x00FF = none := by decide

/-- The spelling of P1 to P4. -/
theorem test_asm :
    (Instr.ldImm 10 0x9D).asm = "LD VA, 0x9D" ∧ (Instr.call 0x210).asm = "CALL 0x210" ∧
    (Instr.loadRegs 2).asm = "LD V2, [I]" ∧ (Instr.jpV0 0x20A).asm = "JP V0, 0x20A" := by decide

/-- P2, its subroutine under a label. -/
def programP2 : List AsmLine :=
  [.code (.ldImm 10 0x9D), .code (.ldI 0x300), .code (.call 0x210), .code (.loadRegs 2), .code (.jp 0x208),
   .db [0, 0, 0, 0, 0, 0], .label "digits", .code (.ldBVx 10), .code .ret]

theorem test_assemble :
    assemble programP2 = [0x6A, 0x9D, 0xA3, 0x00, 0x22, 0x10, 0xF2, 0x65, 0x12, 0x08, 0, 0, 0, 0, 0, 0,
      0xFA, 0x33, 0x00, 0xEE] ∧ labelAddress 0x200 "digits" programP2 = some 0x210 := by decide

/-! ### Control transfer -/

/-- CF1 -/
theorem test_call : ok (run1 (base.setPc 0x204) 0x2300)
    (fun t _ => t.pc == 0x300 && t.sp == 1 && t.stack[0] == 0x206) = true := by decide

/-- CF3 -/
theorem test_call_overflow :
    faulted (run1 { base with pc := 0x204, sp := 16 } 0x2300) (.stackOverflow 0x204 16) = true := by
  decide

/-- CF4 -/
theorem test_ret : ok (run1 { base with pc := 0x300, sp := 1, stack := base.stack.set 0 0x206 } 0x00EE)
    (fun t _ => t.pc == 0x206 && t.sp == 0) = true := by decide

/-- CF5 -/
theorem test_ret_underflow : faulted (run1 base 0x00EE) (.stackUnderflow 0x200 0) = true := by decide

/-- CF6 -/
theorem test_jp : ok (run1 base 0x1234) (fun t _ => t.pc == 0x234) = true := by decide

/-- CF7 and CF9: the fetch that follows. -/
theorem test_fetch_past_the_end :
    faulted (plain (step (base.setPc 0xFFF))) (.addressError 0xFFF 0x1000) = true ∧
    faulted (plain (step (base.setPc 0x10FE))) (.addressError 0x10FE 0x10FE) = true := by decide

/-- CF9 -/
theorem test_jpV0 : ok (run1 (withV base [(0, 0xFF)]) 0xBFFF) (fun t _ => t.pc == 0x10FE) = true := by
  decide

/-! ### Skips -/

/-- SK1, SK2 -/
theorem test_seImm :
    ok (run1 (withV (base.setPc 0x210) [(3, 0x42)]) 0x3342) (fun t _ => t.pc == 0x214) = true ∧
    ok (run1 (withV (base.setPc 0x210) [(3, 0x41)]) 0x3342) (fun t _ => t.pc == 0x212) = true := by decide

/-- SK3 -/
theorem test_sneImm :
    ok (run1 (withV (base.setPc 0x210) [(3, 0x42)]) 0x4342) (fun t _ => t.pc == 0x212) = true := by decide

/-- SK4 -/
theorem test_seReg :
    ok (run1 (withV base [(1, 7), (2, 7)]) 0x5120) (fun t _ => t.pc == 0x204) = true := by decide

/-- SK6 -/
theorem test_sneReg :
    ok (run1 (withV base [(1, 1), (2, 2)]) 0x9120) (fun t _ => t.pc == 0x204) = true := by decide

/-- SK8 -/
theorem test_skp :
    ok (run1 (withV { base with pc := 0x300, key := base.key.set 10 true } [(5, 0x0A)]) 0xE59E)
      (fun t _ => t.pc == 0x304) = true := by decide

/-- SK10 -/
theorem test_skp_key_index :
    faulted (run1 (withV base [(5, 0x10)]) 0xE59E) (.keyIndexError 0x200 0x10) = true := by decide

/-- SK9 -/
theorem test_sknp :
    ok (run1 (withV { base with pc := 0x300, key := base.key.set 10 true } [(5, 0x0A)]) 0xE5A1)
      (fun t _ => t.pc == 0x302) = true := by decide

/-- SK5 -/
theorem test_illegal_word : faulted (run1 base 0x5121) (.decodeError 0x200 0x5121) = true := by decide

/-! ### Registers and arithmetic -/

/-- S1 -/
theorem test_ldImm :
    ok (run1 base 0x6A2F) (fun t _ => t.getV 10 == 0x2F && t.pc == 0x202) = true := by decide

/-- AL2 -/
theorem test_addImm : ok (run1 (withV base [(1, 0xFF), (15, 0x33)]) 0x7102)
    (fun t _ => t.getV 1 == 0x01 && t.getV 15 == 0x33) = true := by decide

/-- AL4 -/
theorem test_ldReg : ok (run1 (withV base [(2, 0x99)]) 0x8120) (fun t _ => t.getV 1 == 0x99) = true := by
  decide

/-- AL5 -/
theorem test_orReg : ok (run1 (withV base [(1, 0xF0), (2, 0x0F), (15, 0x55)]) 0x8121)
    (fun t _ => t.getV 1 == 0xFF && t.getV 15 == 0x55) = true := by decide

/-- AL6 -/
theorem test_andReg : ok (run1 (withV base [(1, 0xF0), (2, 0x3C)]) 0x8122)
    (fun t _ => t.getV 1 == 0x30) = true := by decide

/-- AL7 -/
theorem test_xorReg : ok (run1 (withV base [(1, 0xAB)]) 0x8113) (fun t _ => t.getV 1 == 0) = true := by
  decide

/-- AL10 -/
theorem test_addReg : ok (run1 (withV base [(1, 0x80), (2, 0x80)]) 0x8124)
    (fun t _ => t.getV 1 == 0 && t.getV 15 == 1) = true := by decide

/-- AL11, AL12 -/
theorem test_addReg_vF :
    ok (run1 (withV base [(15, 0xFF), (2, 1)]) 0x8F24) (fun t _ => t.getV 15 == 2) = true ∧
    ok (run1 (withV base [(1, 0x10), (15, 0xF0)]) 0x81F4)
      (fun t _ => t.getV 1 == 0x11 && t.getV 15 == 1) = true := by decide

/-- AL16, AL17 -/
theorem test_subReg :
    ok (run1 (withV base [(1, 3), (2, 5)]) 0x8125)
      (fun t _ => t.getV 1 == 0xFE && t.getV 15 == 0) = true ∧
    ok (run1 (withV base [(1, 7), (2, 7)]) 0x8125)
      (fun t _ => t.getV 1 == 0 && t.getV 15 == 0) = true := by decide

/-- AL18, AL19 -/
theorem test_subReg_vF :
    ok (run1 (withV base [(15, 5), (2, 3)]) 0x8F25) (fun t _ => t.getV 15 == 0xFE) = true ∧
    ok (run1 (withV base [(1, 5), (15, 3)]) 0x81F5)
      (fun t _ => t.getV 1 == 4 && t.getV 15 == 1) = true := by decide

/-- AL23 -/
theorem test_shr : ok (run1 (withV base [(1, 0xFF)]) 0x8176)
    (fun t _ => t.getV 1 == 0x7F && t.getV 15 == 1) = true := by decide

/-- AL24 -/
theorem test_shr_vF : ok (run1 (withV base [(15, 3)]) 0x8F06) (fun t _ => t.getV 15 == 0) = true := by
  decide

/-- AL25, AL26 -/
theorem test_subnReg :
    ok (run1 (withV base [(1, 3), (2, 5)]) 0x8127)
      (fun t _ => t.getV 1 == 2 && t.getV 15 == 1) = true ∧
    ok (run1 (withV base [(1, 5), (2, 3)]) 0x8127)
      (fun t _ => t.getV 1 == 0xFE && t.getV 15 == 0) = true := by decide

/-- AL28, AL29 -/
theorem test_subnReg_vF :
    ok (run1 (withV base [(15, 3), (2, 5)]) 0x8F27) (fun t _ => t.getV 15 == 4) = true ∧
    ok (run1 (withV base [(1, 3), (15, 5)]) 0x81F7)
      (fun t _ => t.getV 1 == 0xFE && t.getV 15 == 1) = true := by decide

/-- AL31 -/
theorem test_shl : ok (run1 (withV base [(1, 0x81)]) 0x810E)
    (fun t _ => t.getV 1 == 2 && t.getV 15 == 1) = true := by decide

/-- AL33 -/
theorem test_shl_vF : ok (run1 (withV base [(15, 0x81)]) 0x8F0E) (fun t _ => t.getV 15 == 2) = true := by
  decide

/-- AL36 -/
theorem test_rnd : ok (run1 (offerRandom 0xA7 base) 0xC30F)
    (fun t _ => t.getV 3 == 0x07 && t.rngQueue == []) = true := by decide

/-! ### Index and memory -/

/-- ME1 -/
theorem test_ldI : ok (run1 base 0xA2F0) (fun t _ => t.i == 0x2F0) = true := by decide

/-- ME3, ME4 -/
theorem test_addIVx :
    ok (run1 (withV (base.setI 0xFFF) [(1, 1)]) 0xF11E) (fun t _ => t.i == 0x1000) = true ∧
    ok (run1 (withV (base.setI 0xFFFF) [(1, 1)]) 0xF11E) (fun t _ => t.i == 0) = true := by decide

/-- ME6 -/
theorem test_ldFVx : ok (run1 (withV base [(1, 0xFF)]) 0xF129) (fun t _ => t.i == 0x4FB) = true := by
  decide

/-- S6 -/
theorem test_ldBVx : ok (run1 (withV (base.setI 0x300) [(1, 157)]) 0xF133)
    (fun t _ => t.readBytes 0x300 3 == [1, 5, 7] && t.i == 0x300) = true := by decide

/-- ME10 -/
theorem test_ldBVx_address :
    faulted (run1 (withV (base.setI 0xFFE) [(1, 9)]) 0xF133) (.addressError 0x200 0x1000) = true := by
  decide

/-- ME11 -/
theorem test_storeRegs : ok (run1 (withV (base.setI 0x400) [(0, 1), (1, 2), (2, 3), (3, 4)]) 0xF255)
    (fun t _ => t.readBytes 0x400 4 == [1, 2, 3, 0] && t.i == 0x400) = true := by decide

/-- ME13 -/
theorem test_storeRegs_address :
    faulted (run1 (base.setI 0xFF1) 0xFF55) (.addressError 0x200 0x1000) = true := by decide

/-- ME14 -/
theorem test_loadRegs :
    ok (run1 ((withV (base.setI 0x400) [(3, 9)]).storeBytes 0x400 [1, 2, 3, 4]) 0xF265)
      (fun t _ => t.getVUpTo 3 == [1, 2, 3, 9] && t.i == 0x400) = true := by decide

/-- ME16 -/
theorem test_loadRegs_address :
    faulted (run1 (base.setI 0x1000) 0xF065) (.addressError 0x200 0x1000) = true := by decide

/-- A byte written back to what it reads as unlisted leaves no cell (log 7). -/
theorem test_memory_canonical :
    ((base.storeBytes 0x300 [7, 8]).storeBytes 0x300 [0, 8]).mem = [(0x301, 8)] := by decide

/-! ### Display -/

/-- DS8 -/
theorem test_cls :
    ok (run1 (withV { base with disp := Vector.replicate 32 5 } [(15, 7)]) 0x00E0) (fun t out =>
      t.disp == Display.clear && t.getV 15 == 7 && out == ⟨true, false⟩) = true := by decide

/-- DS3: the sprite wraps at the right and at the bottom. -/
theorem test_drw_wraps :
    ok (run1 ((withV (base.setI 0x300) [(1, 62), (2, 31)]).storeBytes 0x300 [0xFF, 0x81]) 0xD122)
      (fun t out => t.disp[31] == 0xC00000000000003F && t.disp[0] == 0x4000000000000020 &&
        t.disp[1] == 0 && t.getV 15 == 0 && out == ⟨true, false⟩) = true := by decide

/-- S5 (its vector is the second draw of P3): the second draw erases and sets VF. -/
theorem test_drw_twice :
    ok (run1 ((withV (base.setI 0x300) [(1, 10)]).storeBytes 0x300 [0xF0]) 0xD121) (fun t _ =>
      ok (run1 (t.setPc 0x200) 0xD121) fun u _ =>
        u.disp == Display.clear && u.getV 15 == 1) = true := by decide

/-- DS4, R33: pixel (8, 8) is at index 8 + 64 · 8. -/
theorem test_drw_pixel_place :
    ok (run1 ((withV (base.setI 0x300) [(1, 200), (2, 40)]).storeBytes 0x300 [0x80]) 0xD121)
      (fun t _ => linearIndex (8, 8) == 520 && Display.pixel t.disp (8, 8) && t.disp[9] == 0) = true := by decide

/-! ### Timers and keys -/

/-- TM3 -/
theorem test_ldVxDt : ok (run1 (base.setDt 0x10) 0xF307)
    (fun t _ => t.getV 3 == 0x10 && t.dt == 0x0F) = true := by decide

/-- TM1, TM2 -/
theorem test_ldDtVx :
    ok (run1 (withV base [(1, 5)]) 0xF115) (fun t _ => t.dt == 4) = true ∧
    ok (run1 (base.setDt 9) 0xF115) (fun t _ => t.dt == 0) = true := by decide

/-- TM4 -/
theorem test_ldStVx : ok (run1 (withV base [(2, 1)]) 0xF218)
    (fun t out => t.st == 0 && out == ⟨false, true⟩ && !soundActive t) = true := by decide

/-- TM8 -/
theorem test_ldVxK_waits : ok (run1 { base with pc := 0x210, dt := 3 } 0xF40A)
    (fun t _ => t.pc == 0x210 && t.getV 4 == 0 && t.dt == 2) = true := by decide

/-- TM9 -/
theorem test_ldVxK_takes : ok (run1 { base with pc := 0x210, key := (base.key.set 3 true).set 7 true } 0xF40A)
    (fun t _ => t.getV 4 == 3 && t.pc == 0x212) = true := by decide

/-! ### The host's operations -/

/-- HO2, HO3, HO4, HO7 -/
theorem test_host_protocol :
    faulted (plain (step (stateAfter (.loadProgram []) State.reset))) (.decodeError 0x200 0) = true ∧
    refusedWith (loadProgram [1] base) .alreadyLoaded = true ∧
    refusedWith (step State.reset) .notLoaded = true ∧
    refusedWith (setKey 16 true base) (.keyOutOfRange 16) = true := by decide

/-- HO5 -/
theorem test_skip : ok (plain (skip { base with dt := 5 }))
    (fun t _ => t == { base with pc := 0x202, dt := 4 }) = true := by decide

/-- R51, R192: the image stands from 0x200, the font below it. -/
theorem test_load : (stateAfter (.loadProgram [0x60, 0x05]) State.reset).readBytes 0x1FF 4 = [0, 0x60, 5, 0] ∧
    (stateAfter (.loadProgram [0x60, 0x05]) State.reset).readByte 0x004 = 0xF0 := by decide

/-! ### Witnesses: states and operands that meet the hypotheses of the obligations -/

/-- The core with the word w at PC. -/
def atWord (s : State) (w : Word) : State := s.withFetchWord 16 w.toNat

/-- How a witness of `State.executes` is given: the word, by evaluation. -/
theorem executes_of_word (s : State) (w : Word) (i : Instr) (hp : s.phase = .loaded)
    (hpc : s.pc.toNat + 1 < 4096) (hhi : s.readByte s.pc.toNat = hiByte w)
    (hlo : s.readByte (s.pc.toNat + 1) = loByte w) (hd : decodeWord w = .ok i) : s.executes i :=
  ⟨w, ⟨hp, hpc, hhi, hlo⟩, hd⟩

/-- `DecodeOfEncode`: every operand at the top of its range. -/
theorem witness_DecodeOfEncode :
    (Instr.drw 15 15 15).wellFormed = true ∧ (Instr.rnd 15 0xFF).wellFormed = true := by decide

theorem witness_EncodeOfDecode : decodeWord 0xDFFF = .ok (.drw 15 15 15) := by decide

/-- `DecoderIsTheOpcodeMap`: a row and a word that matches it. -/
theorem witness_DecoderIsTheOpcodeMap :
    ∃ r ∈ opcodeMap, r.matchesWord 0xFF65 = true ∧ r.mnemonic = "LD_Vx___I" :=
  ⟨⟨"LD_Vx___I", 0xF0FF, 0xF065⟩, by decide, by decide, rfl⟩

/-- `IllegalWordsRaiseDecodeError`: a word of no row, and a state that fetches it. -/
theorem witness_IllegalWordsRaiseDecodeError :
    (∀ r ∈ opcodeMap, r.matchesWord 0x5121 = false) ∧ (atWord base 0x5121).fetches 0x5121 :=
  ⟨by decide, rfl, by decide, by decide, by decide⟩

/-- `PlacedWordIsExecuted`: the highest address a word fits at. -/
theorem witness_PlacedWordIsExecuted :
    (State.reset.setPc 0xFFE).memWf ∧ (State.reset.setPc 0xFFE).pc.toNat + 1 < 4096 ∧
      decodeWord 0xFF65 = .ok (.loadRegs 15) := by decide

/-- `StepRunsTheDecodedInstruction`: an execution that answers a next state, and one that faults. -/
theorem witness_StepRunsTheDecodedInstruction :
    (∃ t, (atWord base 0x00E0).executes .cls ∧
      exec .cls ((atWord base 0x00E0).setPc ((atWord base 0x00E0).pc + 2)) = .next t) ∧
    (∃ f, (atWord base 0x00EE).executes .ret ∧
      exec .ret ((atWord base 0x00EE).setPc ((atWord base 0x00EE).pc + 2)) = .fault f) :=
  ⟨⟨_, executes_of_word _ 0x00E0 _ rfl (by decide) (by decide) (by decide) (by decide), rfl⟩,
   ⟨_, executes_of_word _ 0x00EE _ rfl (by decide) (by decide) (by decide) (by decide), rfl⟩⟩

/-- `FetchIsBigEndianAndChecked`: each clause at its boundary. -/
theorem witness_FetchIsBigEndianAndChecked :
    base.phase = .loaded ∧ (base.setPc 0xFFE).pc.toNat < 0xFFF ∧ (base.setPc 0xFFF).pc.toNat = 0xFFF ∧
      0x1000 ≤ (base.setPc 0x1000).pc.toNat ∧ 0x1000 ≤ (base.setPc 0xFFFF).pc.toNat := by decide

theorem witness_OutOfProtocolIsRefused :
    State.reset.phase = .init ∧ base.phase = .loaded ∧ (16 : Nat) ≤ 16 := by decide

/-- `StepFaultIsPrecise`, `FaultsIgnoreLatchAndDraws`: a fault of fetch, of decode and of execution. -/
theorem witness_step_faults :
    step (base.setPc 0xFFF) = .fault (.addressError 0xFFF 0x1000) ∧
    step base = .fault (.decodeError 0x200 0) ∧
    step (atWord base 0x00EE) = .fault (.stackUnderflow 0x200 0) := ⟨rfl, rfl, rfl⟩

theorem witness_ExecutionFaultsByInstruction :
    exec .ret base = .fault (.stackUnderflow 0x1FE 0) ∧
    exec (.skp 5) (base.setV 5 16) = .fault (.keyIndexError 0x1FE 16) := ⟨rfl, rfl⟩

theorem witness_EveryInstructionKeepsItsFrame :
    base.memWf ∧ ∃ t, exec (.storeRegs 15) (base.setI 0xFF0) = .next t := ⟨by decide, _, rfl⟩

/-- `PcAtCommit`, `TimersTickOncePerStep`: a successful step. -/
theorem witness_step_next : ∃ t, step (atWord base 0x3000) = .next t := ⟨_, rfl⟩

/-- `StepOutcomeFlags`: each clause, 00E0 and Fx18. -/
theorem witness_StepOutcomeFlags :
    (∃ t o, stepWithOutcome (atWord base 0x00E0) = .next (t, o)) ∧
    (∃ t o, stepWithOutcome (atWord base 0xF218) = .next (t, o)) := ⟨⟨_, _, rfl⟩, ⟨_, _, rfl⟩⟩

theorem reset_inv : State.reset.Inv := by decide

/-- `StepKeepsInvariant`: at the highest PC a step can leave, by CF9. -/
theorem witness_StepKeepsInvariant :
    (atWord (base.setV 0 0xFF) 0xBFFF).Inv ∧ ∃ t, step (atWord (base.setV 0 0xFF) 0xBFFF) = .next t ∧
      t.pc.toNat = 0x10FE := ⟨by decide, _, rfl, by decide⟩

/-- `NoRunCarriesPcPast10FE`, `DelayTimerCountsSteps`: the same run of one step. -/
theorem witness_run : ∃ t, runSteps 1 (atWord (base.setV 0 0xFF) 0xBFFF) = .next t := ⟨_, rfl⟩

/-- `DelayTimerCountsSteps`: no step of that run executes Fx15. -/
theorem witness_DelayTimerCountsSteps : ∀ m u x, m < 1 →
    runSteps m (atWord base 0x1200) = .next u → ¬ u.executes (.ldDtVx x) := by
  intro m u x hm hu hx
  obtain rfl : m = 0 := by omega
  cases hu
  obtain ⟨-, w, hf, hd⟩ := (executes_iff _ _).mp hx
  cases hf
  cases hd

theorem witness_HostOperationsKeepMemoryCanonical : base.memWf := by decide

/-- `OnlyStoresAndLoadsWriteMemory`: each clause, a byte that changes. -/
theorem witness_OnlyStoresAndLoadsWriteMemory :
    base.memWf ∧ (stateAfter .initializeCore (base.storeBytes 0x300 [1])).readByte 0x300 ≠
      (base.storeBytes 0x300 [1]).readByte 0x300 ∧
    (stateAfter (.loadProgram [1]) State.reset).readByte 0x200 ≠ State.reset.readByte 0x200 ∧
    (stateAfter .step (atWord (withV (base.setI 0xFFD) [(1, 9)]) 0xF133)).readByte 0xFFF ≠
      (atWord (withV (base.setI 0xFFD) [(1, 9)]) 0xF133).readByte 0xFFF ∧
    (stateAfter .step (atWord (withV (base.setI 0xFF0) [(15, 9)]) 0xFF55)).readByte 0xFFF ≠
      (atWord (withV (base.setI 0xFF0) [(15, 9)]) 0xFF55).readByte 0xFFF := by decide

/-- `LoadProgramPlacesTheImage`, `OversizeLoadIsSizeError`: the longest image and one byte more. -/
theorem witness_loads :
    State.reset.memWf ∧ State.reset.phase = .init ∧
    (List.replicate 3584 (1 : Byte)).length ≤ 3584 ∧
    3584 < (List.replicate 3585 (1 : Byte)).length ∧ (List.replicate 3584 (1 : Byte)).length = 3584 := by
  simp only [List.length_replicate]
  decide

theorem witness_SkipPassesOverAndTicks : base.phase = .loaded := rfl

/-- `CallPushesAndJumps`: the last free slot, and none. -/
theorem witness_CallPushesAndJumps :
    (State.sp { base with sp := 15 }).val < 16 ∧ (State.sp { base with sp := 16 }).val = 16 := by decide

/-- `ReturnPops`: one slot occupied, all, and none. -/
theorem witness_ReturnPops :
    (State.sp { base with sp := 1 }).val = 0 + 1 ∧ (State.sp { base with sp := 16 }).val = 15 + 1 ∧
      base.sp.val = 0 := by decide

/-- The call of S3, with the return at its target. -/
def callAndReturn : State := (atWord (base.setPc 0x204) 0x2300).storeBytes 0x300 [0x00, 0xEE]

theorem witness_CallThenReturnBalances :
    callAndReturn.executes (.call 0x300) ∧ callAndReturn.sp.val < 16 ∧ (0x300 : Addr).toNat < 0xFFF ∧
      callAndReturn.readByte (0x300 : Addr).toNat = 0x00 ∧
      callAndReturn.readByte ((0x300 : Addr).toNat + 1) = 0xEE :=
  ⟨executes_of_word _ 0x2300 _ rfl (by decide) (by decide) (by decide) (by decide), by decide⟩

/-- `KeysSkip`: the highest key index, and the first value that is none. -/
theorem witness_KeysSkip :
    ((base.setV 5 15).getV 5).toNat = (15 : Fin 16).val ∧ 15 < ((base.setV 5 16).getV 5).toNat := by decide

/-- `AddSetsCarry`, `SubtractSetsGreater`, `ReverseSubtractSetsGreater`, `ShiftsMoveOneBit`: the register
numbers of each clause. -/
theorem witness_flag_register_clauses :
    ((1 : Reg) ≠ 15 ∧ (2 : Reg) ≠ 15) ∧ ((1 : Reg) ≠ 15 ∧ (15 : Reg) = 15) := by decide

theorem witness_RandomByteIsMasked :
    (offerRandom 0xA7 base).rngQueue = 0xA7 :: [] ∧ base.rngQueue = [] := by decide

/-- `BcdStoresThreeDigits`: ME9 and ME10. -/
theorem witness_BcdStoresThreeDigits :
    base.memWf ∧ indexAddress (base.setI 0xFFD) 0 + 3 ≤ 4096 ∧
      4096 < indexAddress (base.setI 0xFFE) 0 + 3 := by decide

/-- `StoreRegistersAtIndex`, `LoadRegistersFromIndex`, `StoreThenLoadGivesTheRegistersBack`: ME12, ME13. -/
theorem witness_register_transfers :
    base.memWf ∧ indexAddress (base.setI 0xFF0) 0 + ((15 : Reg).val + 1) ≤ 4096 ∧
      4096 < indexAddress (base.setI 0xFF1) 0 + ((15 : Reg).val + 1) ∧ (15 : Reg) ≤ 15 := by decide

/-- `FetchSeesTheStore`: ME17. -/
theorem witness_FetchSeesTheStore :
    base.memWf ∧ base.phase = .loaded ∧ indexAddress (base.setI 0x200) 0 + ((1 : Reg).val + 1) ≤ 4096 ∧
      (1 : Reg).val = (0 : Reg).val + 1 ∧ (1 : Reg) ≤ 1 ∧
      (0x200 : Word).toNat = indexAddress (base.setI 0x200) (0 : Reg).val := by decide

theorem witness_ClearScreenClearsEveryPixel : (atWord base 0x00E0).executes .cls :=
  executes_of_word _ 0x00E0 _ rfl (by decide) (by decide) (by decide) (by decide)

/-- One sprite row of one pixel at 0x300, drawn at (0, 0). -/
def onePixel : State := (base.setI 0x300).storeBytes 0x300 [0x80]

/-- `DrawXorsTheSprite`: no row at I = 0x1000 (DS6), and the tallest sprite at the highest address. -/
theorem witness_DrawXorsTheSprite :
    ((0 : Nat) ≤ 15 ∧ ((0 : Nat) = 0 ∨ indexAddress (base.setI 0x1000) 0 + 0 ≤ 4096)) ∧
    ((15 : Nat) ≤ 15 ∧ ((15 : Nat) = 0 ∨ indexAddress (base.setI 0xFF1) 0 + 15 ≤ 4096)) := by decide

/-- `DrawXorsTheSprite`, `DrawingTwiceRestores`: pixel (0, 0) is hit, by row 0 and column 0. -/
theorem witness_hit : ∃ r c, r < 1 ∧ c < 8 ∧
    (onePixel.readByte (indexAddress onePixel r)).getLsbD (7 - c) = true ∧
    ((0, 0) : Pixel).1.val = ((onePixel.getV 0).toNat + c) % 64 ∧
    ((0, 0) : Pixel).2.val = ((onePixel.getV 0).toNat + r) % 32 := ⟨0, 0, by decide⟩

/-- `DrawXorsTheSprite`: that pixel set before (a collision), and clear before (none). -/
theorem witness_collision :
    Display.pixel (State.disp { onePixel with disp := Vector.replicate 32 1 }) (0, 0) = true ∧
    Display.pixel onePixel.disp (0, 0) = false := by decide

/-- `DrawChecksItsAddresses`: one row at 0x1000, and the last of two rows there (DS7). -/
theorem witness_DrawChecksItsAddresses :
    4096 < indexAddress (base.setI 0x1000) 0 + 1 ∧ 4096 < indexAddress (base.setI 0xFFF) 0 + 2 := by decide

theorem witness_DrawingTwiceRestores : ∃ t, exec (.drw 0 0 1) onePixel = .next t ∧
    t.getV 0 = onePixel.getV 0 := ⟨_, rfl, by decide⟩

/-- `SecondDrawAlwaysCollides`: its hypotheses where every sprite bit meets a set pixel, and what VF then
is (log 12). -/
theorem witness_SecondDrawAlwaysCollides : ∃ t u,
    exec (.drw 0 0 1) { onePixel with disp := Vector.replicate 32 1 } = .next t ∧
    exec (.drw 0 0 1) t = .next u ∧ (0 : Reg) ≠ 15 ∧ u.getV 15 = 0 := ⟨_, _, rfl, rfl, by decide⟩

/-- `DelayTimerReadAndWrite`, `SoundTimerWrite`. -/
theorem witness_timers : (atWord base 0xF307).executes (.ldVxDt 3) ∧
    (atWord base 0xF115).executes (.ldDtVx 1) ∧ (atWord base 0xF218).executes (.ldStVx 2) :=
  ⟨executes_of_word _ 0xF307 _ rfl (by decide) (by decide) (by decide) (by decide),
   executes_of_word _ 0xF115 _ rfl (by decide) (by decide) (by decide) (by decide),
   executes_of_word _ 0xF218 _ rfl (by decide) (by decide) (by decide) (by decide)⟩

/-- `KeyWaitTakesTheLowestKey`: only the highest key pressed, and none. -/
theorem witness_KeyWaitTakesTheLowestKey :
    (State.key { base with key := base.key.set 15 true })[15] = true ∧
    (∀ j : Fin 16, j < 15 → (State.key { base with key := base.key.set 15 true })[j.val] = false) ∧
    (∀ k : Fin 16, base.key[k.val] = false) := by decide

theorem witness_KeyWaitOnlyTicks : (atWord base 0xF40A).executes (.ldVxK 4) ∧
    ∀ k : Fin 16, (atWord base 0xF40A).key[k.val] = false :=
  ⟨executes_of_word _ 0xF40A _ rfl (by decide) (by decide) (by decide) (by decide), by decide⟩

theorem witness_SelfJumpOnlyTicks : (atWord base 0x1200).atSelfJump :=
  ⟨0x200, executes_of_word _ 0x1200 _ rfl (by decide) (by decide) (by decide) (by decide), by decide⟩

end Sys2Proof.Tests
end

/-! SUPPORT. What an execution that answers a next state has done, said once: `exec_writes` for everything
it writes, and the rules of the shared operations it rests on. -/
namespace Sys2Proof.Machine

/-! ### The shared operations, when they answer a next state -/

section Answers

variable {s t : State}

theorem guardRange_next {a len : Nat} {ok : State} (h : guardRange s a len ok = .next t) :
    (len = 0 ∨ a + len ≤ Config.memSize) ∧ t = ok := by
  obtain ⟨hlen, hok⟩ | ⟨-, -, hf⟩ := guardRange_cases s a len ok
  · exact ⟨hlen, Host.Outcome.next.inj (h.symm.trans hok)⟩
  · cases h.symm.trans hf

/-- 2nnn, when it answers: a slot was free, and now holds the return address (R30, R103). -/
theorem exec_call_next {nnn : Addr} (h : exec (.call nnn) s = .next t) :
    ∃ hsp : s.sp.val < Config.stackDepth, t = State.setPc { s with
      stack := s.stack.set s.sp.val s.pc
      sp := ⟨s.sp.val + 1, Nat.succ_lt_succ hsp⟩ } (addrOperand nnn) := by
  replace h : push s s.pc (·.setPc (addrOperand nnn)) = .next t := h
  by_cases hsp : s.sp.val < 16
  · rw [push_ok s _ _ hsp] at h
    exact ⟨hsp, (Host.Outcome.next.inj h).symm⟩
  · have hfull : s.sp.val = 16 := by omega
    rw [push_full s _ _ hfull] at h
    cases h

/-- 00EE, when it answers: a slot was occupied, and PC is its value (R31, R101). -/
theorem exec_ret_next (h : exec .ret s = .next t) :
    ∃ n, ∃ hn : n < Config.stackDepth, s.sp.val = n + 1 ∧
      t = State.setPc { s with sp := ⟨n, Nat.lt_succ_of_lt hn⟩ } s.stack[n] := by
  replace h : pop s (fun a t => t.setPc a) = .next t := h
  cases hsp : s.sp.val with
  | zero =>
    rw [pop_empty s _ hsp] at h
    cases h
  | succ n =>
    have hn : n < 16 := by omega
    rw [pop_ok s _ n hn hsp] at h
    exact ⟨n, hn, rfl, (Host.Outcome.next.inj h).symm⟩

theorem withKey_next {x : Reg} {rest : Bool → State} (h : withKey x s rest = .next t) :
    ∃ hx : (s.getV x).toNat < Config.numKeys, t = rest s.key[(s.getV x).toNat] := by
  by_cases hx : (s.getV x).toNat < Config.numKeys
  · exact ⟨hx, Host.Outcome.next.inj (h.symm.trans (withKey_ok s x rest hx))⟩
  · cases h.symm.trans (withKey_fault s x rest (Nat.not_lt.mp hx))

/-- Ex9E, when it answers: V[x] names a key (R115). -/
theorem exec_skp_next {x : Reg} (h : exec (.skp x) s = .next t) :
    ∃ hx : (s.getV x).toNat < Config.numKeys, t = s.skipIf s.key[(s.getV x).toNat] :=
  withKey_next (rest := s.skipIf) h

/-- ExA1, when it answers: V[x] names a key (R116). -/
theorem exec_sknp_next {x : Reg} (h : exec (.sknp x) s = .next t) :
    ∃ hx : (s.getV x).toNat < Config.numKeys, t = s.skipIf !s.key[(s.getV x).toNat] :=
  withKey_next (rest := fun pressed => s.skipIf !pressed) h

/-- Fx0A takes a pressed key, or leaves PC where the fetch found it (R163). -/
theorem exec_ldVxK_next {x : Reg} (h : exec (.ldVxK x) s = .next t) :
    (∃ k, s.firstKey = some k ∧ t = s.setV x (BitVec.ofNat 8 k.val)) ∨
      (s.firstKey = none ∧ t = s.setPc (s.pc - 2)) := by
  simp only [exec, execLdVxK] at h
  split at h
  · next k hk => exact .inl ⟨k, hk, (Host.Outcome.next.inj h).symm⟩
  · next hk => exact .inr ⟨hk, (Host.Outcome.next.inj h).symm⟩

end Answers

@[simp] theorem length_bcdDigits (b : Byte) : (bcdDigits b).length = 3 := rfl

/-! ### The single writes an instruction is made of -/

/-- One write of one component of the state, of those that `w` names. A store stands where `w` says it
does, and its addresses exist. -/
inductive Writes.Allows (w : Writes) (s : State) : State → Prop where
  | setRegs (v : Vector Byte 16) (h : ∀ r : Reg, r ∉ w.regs → v[r.val] = s.v[r.val]) :
      w.Allows s { s with v := v }
  | setI (h : w.index = true) (i : Word) : w.Allows s (s.setI i)
  | setPc (h : w.pc = true) (pc : Word) : w.Allows s (s.setPc pc)
  | setStack (h : w.stack = true) (stack : Vector Word Config.stackDepth) (sp : Fin 17) :
      w.Allows s { s with stack := stack, sp := sp }
  | setDt (h : w.dt = true) (b : Byte) : w.Allows s (s.setDt b)
  | setSt (h : w.st = true) (b : Byte) : w.Allows s (s.setSt b)
  | setDisp (h : w.disp = true) (d : Display) : w.Allows s (s.setDisp d)
  | dropRandom (h : w.random = true) : w.Allows s s.dropRandom
  | storeBytes {ws : List Byte} (hlen : ws.length = w.memLen)
      (hrange : w.memStart + w.memLen ≤ Config.memSize) :
      w.Allows s (s.storeBytes w.memStart ws)

theorem Writes.allows_setV {w : Writes} {x : Reg} (hx : x ∈ w.regs) (s : State) (b : Byte) :
    w.Allows s (s.setV x b) :=
  .setRegs _ fun r hr => s.getV_setV_ne x r b fun e => hr (e ▸ hx)

theorem Writes.allows_setVUpTo {w : Writes} {x : Reg} (hx : ∀ r : Reg, r.val ≤ x.val → r ∈ w.regs)
    (s : State) (f : Nat → Byte) : w.Allows s (s.setVUpTo x f) :=
  .setRegs _ fun r hr => (s.getV_setVUpTo x r f).trans (if_neg fun hle => hr (hx r hle))

/-- From s to t by writes that `w` names. -/
abbrev Writes.Reaches (w : Writes) : State → State → Prop := Relation.ReflTransGen w.Allows

theorem Writes.reaches_skipIf {w : Writes} (h : w.pc = true) (s : State) (cond : Bool) :
    w.Reaches s (s.skipIf cond) := by
  cases cond with
  | false => exact .refl
  | true => exact .single (.setPc h _)

theorem Writes.reaches_flagThenResult {w : Writes} {x : Reg} (hx : x ∈ w.regs) (hF : vF ∈ w.regs)
    (s : State) (y : Reg) (flag result : Byte → Byte → Byte) :
    w.Reaches s (flagThenResult x y flag result s) :=
  .head (Writes.allows_setV hF ..) (.single (Writes.allows_setV hx ..))

/-- An execution that answers a next state has made only the writes `writesOf` names. -/
theorem exec_writes {i : Instr} {s t : State} (h : exec i s = .next t) : (writesOf s i).Reaches s t := by
  cases i with
  | cls => cases h; exact .single (.setDisp rfl _)
  | ret =>
    obtain ⟨n, hn, -, rfl⟩ := exec_ret_next h
    exact .head (.setStack rfl s.stack ⟨n, Nat.lt_succ_of_lt hn⟩) (.single (.setPc rfl _))
  | call =>
    obtain ⟨hsp, rfl⟩ := exec_call_next h
    exact .head (.setStack rfl _ _) (.single (.setPc rfl _))
  | jp | jpV0 => cases h; exact .single (.setPc rfl _)
  | seImm | sneImm | seReg | sneReg => cases h; exact Writes.reaches_skipIf rfl s _
  | skp =>
    obtain ⟨-, rfl⟩ := exec_skp_next h
    exact Writes.reaches_skipIf rfl s _
  | sknp =>
    obtain ⟨-, rfl⟩ := exec_sknp_next h
    exact Writes.reaches_skipIf rfl s _
  | ldImm | addImm | ldReg | orReg | andReg | xorReg | ldVxDt =>
    cases h
    exact .single (Writes.allows_setV (List.mem_cons_self ..) ..)
  | addReg | subReg | shr | subnReg | shl =>
    cases h
    exact Writes.reaches_flagThenResult (by simp [writesOf]) (by simp [writesOf]) s _ _ _
  | ldI | addIVx | ldFVx => cases h; exact .single (.setI rfl _)
  | rnd =>
    cases h
    exact .head (.dropRandom rfl) (.single (Writes.allows_setV (List.mem_cons_self ..) ..))
  | drw =>
    obtain ⟨-, rfl⟩ := guardRange_next h
    exact .head (.setDisp rfl _) (.single (Writes.allows_setV (List.mem_cons_self ..) ..))
  | ldVxK =>
    obtain ⟨k, -, rfl⟩ | ⟨-, rfl⟩ := exec_ldVxK_next h
    · exact .single (Writes.allows_setV (List.mem_cons_self ..) ..)
    · exact .single (.setPc rfl _)
  | ldDtVx => cases h; exact .single (.setDt rfl _)
  | ldStVx => cases h; exact .single (.setSt rfl _)
  | ldBVx x =>
    obtain ⟨hrange, rfl⟩ := guardRange_next h
    exact .single (.storeBytes (w := writesOf s (.ldBVx x)) (length_bcdDigits _)
      (by simpa [writesOf] using hrange))
  | storeRegs x =>
    obtain ⟨hrange, rfl⟩ := guardRange_next h
    exact .single (.storeBytes (w := writesOf s (.storeRegs x)) (s.length_getVUpTo x)
      (by simpa [writesOf] using hrange))
  | loadRegs x =>
    obtain ⟨-, rfl⟩ := guardRange_next h
    exact .single (Writes.allows_setVUpTo (fun r hr => by simpa [writesOf] using hr) ..)

end Sys2Proof.Machine

/-! SUPPORT. What the writes of an instruction keep: the frame of what is not named, and the canonical form
of memory. -/
namespace Sys2Proof.Machine

/-! ### A byte that is not written (any memory, canonical or not) -/

theorem Memory.lookup_write_of_ne (font : FontRom) (m : Memory) {a b : Nat} (w : Byte) (h : b ≠ a) :
    Memory.lookup (Memory.write font m a w) b = Memory.lookup m b := by
  have hentry : ∀ n, Memory.lookup (Memory.entry font a w ++ n) b = Memory.lookup n b := by
    intro n
    simp [Memory.lookup_append, Memory.lookup_entry, h]
  induction m with
  | nil => simpa [Memory.write] using hentry []
  | cons c m ih =>
    unfold Memory.write
    split
    · exact hentry _
    · split
      · next heq => simp [hentry, Memory.lookup, ← heq, h]
      · simp [Memory.lookup, ih]

theorem Memory.read_writeBytes_outside (font : FontRom) (m : Memory) {a b : Nat} (ws : List Byte)
    (h : ¬ (a ≤ b ∧ b < a + ws.length)) :
    Memory.read font (Memory.writeBytes font m a ws) b = Memory.read font m b := by
  induction ws generalizing a with
  | nil => rfl
  | cons w ws ih =>
    simp only [List.length_cons] at h
    have hne : b ≠ a := by omega
    rw [← ih (a := a + 1) (by omega), Memory.writeBytes, Memory.read_eq, Memory.read_eq,
      Memory.lookup_write_of_ne font _ w hne]

/-! ### Frames -/

theorem Frame.refl (w : Writes) (s : State) : Frame w s s where
  regs _ _ := rfl
  index _ := rfl
  pc _ := rfl
  stack _ := ⟨rfl, rfl⟩
  dt _ := rfl
  st _ := rfl
  disp _ := rfl
  random _ := ⟨rfl, rfl⟩
  memory _ _ := rfl
  latch := rfl
  phase := rfl
  font := rfl

theorem Frame.trans {w : Writes} {s t u : State} (h : Frame w s t) (g : Frame w t u) : Frame w s u where
  regs r hr := (g.regs r hr).trans (h.regs r hr)
  index hw := (g.index hw).trans (h.index hw)
  pc hw := (g.pc hw).trans (h.pc hw)
  stack hw := ⟨(g.stack hw).1.trans (h.stack hw).1, (g.stack hw).2.trans (h.stack hw).2⟩
  dt hw := (g.dt hw).trans (h.dt hw)
  st hw := (g.st hw).trans (h.st hw)
  disp hw := (g.disp hw).trans (h.disp hw)
  random hw := ⟨(g.random hw).1.trans (h.random hw).1, (g.random hw).2.trans (h.random hw).2⟩
  memory a ha := (g.memory a ha).trans (h.memory a ha)
  latch := g.latch.trans h.latch
  phase := g.phase.trans h.phase
  font := g.font.trans h.font

/-- A single write changes only the component it names. -/
theorem Writes.Allows.frame {w : Writes} {s t : State} (h : w.Allows s t) : Frame w s t := by
  have refl := Frame.refl w s
  cases h with
  | setRegs v hv => exact { refl with regs := hv }
  | setI h => exact { refl with index := by simp [h] }
  | setPc h => exact { refl with pc := by simp [h] }
  | setStack h => exact { refl with stack := by simp [h] }
  | setDt h => exact { refl with dt := by simp [h] }
  | setSt h => exact { refl with st := by simp [h] }
  | setDisp h => exact { refl with disp := by simp [h] }
  | dropRandom h =>
    unfold State.dropRandom
    split
    · exact { refl with random := by simp [h] }
    · exact { refl with random := by simp [h] }
  | @storeBytes ws hlen =>
    exact { refl with
      memory := fun a ha => Memory.read_writeBytes_outside s.fontRom s.mem ws (hlen ▸ ha) }

theorem Writes.Reaches.frame {w : Writes} {s t : State} (h : w.Reaches s t) : Frame w s t := by
  induction h with
  | refl => exact Frame.refl w s
  | tail _ hlast ih => exact ih.trans hlast.frame

/-- The frame of every execution, whether or not memory is canonical (R22, R25, R56). -/
theorem exec_frame {i : Instr} {s t : State} (h : exec i s = .next t) : Frame (writesOf s i) s t :=
  (exec_writes h).frame

/-! ### The canonical form of memory -/

theorem Writes.Allows.memWf {w : Writes} {s t : State} (h : w.Allows s t) (hs : s.memWf) : t.memWf := by
  cases h with
  | storeBytes hlen hrange => exact s.memWf_storeBytes hs _ _ (hlen ▸ hrange)
  | dropRandom => simpa [State.memWf] using hs
  | _ => exact hs

theorem exec_memWf {i : Instr} {s t : State} (h : exec i s = .next t) (hs : s.memWf) : t.memWf := by
  have hw := exec_writes h
  clear h
  induction hw with
  | refl => exact hs
  | tail _ hlast ih => exact hlast.memWf ih

/-- Every execution has the frame of its instruction. -/
theorem x : Obligations.EveryInstructionKeepsItsFrame :=
  fun _ _ _ _ h => exec_frame h

end Sys2Proof.Machine

/-! SUPPORT. The statements of `10_state.md`, settled. -/
namespace Sys2Proof.Machine

/-! ### Frames -/

/-- Settles O13: the frame needs no hypothesis on memory, since a write touches no cell of another
address. -/
theorem everyInstructionKeepsItsFrame : Obligations.EveryInstructionKeepsItsFrame :=
  fun _ _ _ _ h => exec_frame h

/-! ### PC at commit (R25) -/

/-- The model's skip, made after the fetch's advance, is the skip of the table (R110). -/
theorem State.pc_skipIf_advance (s : State) (cond : Bool) {P : Prop} [Decidable P] (h : cond = true ↔ P) :
    (s.advance.skipIf cond).pc = skipTarget s.pc P := by
  have hfour : s.pc + 2 + 2 = s.pc + 4 := by bv_omega
  rw [State.pc_skipIf, State.pc_advance, hfour, skipTarget]
  exact if_congr h rfl rfl

/-- An execution leaves PC where the table of R25 says. -/
theorem exec_advance_pc {i : Instr} {s u : State} (h : exec i s.advance = .next u) :
    u.pc = commitPc s i := by
  cases i with
  | jp | jpV0 => cases h; rfl
  | call =>
    obtain ⟨-, rfl⟩ := exec_call_next h
    rfl
  | ret =>
    obtain ⟨n, hn, hsp, rfl⟩ := exec_ret_next h
    have hsp : s.sp.val = n + 1 := hsp
    have hslot : s.stack[s.sp.val - 1]? = some s.stack[n] := by simp [hsp]
    simp [commitPc, hslot]
  | seImm | sneImm | seReg | sneReg => cases h; exact s.pc_skipIf_advance _ (by simp)
  | skp =>
    obtain ⟨hx, rfl⟩ := exec_skp_next h
    rw [State.getV_advance] at hx
    exact s.pc_skipIf_advance _ (by simp [Vector.getElem?_eq_getElem hx])
  | sknp =>
    obtain ⟨hx, rfl⟩ := exec_sknp_next h
    rw [State.getV_advance] at hx
    exact s.pc_skipIf_advance _ (by simp [Vector.getElem?_eq_getElem hx])
  | ldVxK =>
    obtain ⟨k, hk, rfl⟩ | ⟨hk, rfl⟩ := exec_ldVxK_next h
    · have hpressed : ∃ k : Fin Config.numKeys, s.key[k.val] = true :=
        ⟨k, ((firstKey_eq_some s.advance k).mp hk).1⟩
      simp [commitPc, if_pos hpressed]
    · have hnone : ¬ ∃ k : Fin Config.numKeys, s.key[k.val] = true := by
        simpa using (firstKey_eq_none s.advance).mp hk
      simp [commitPc, if_neg hnone]
  | _ => exact (exec_frame h).pc rfl

/-- Settles O14, by the table for the execution of the fetched instruction. -/
theorem pcAtCommit : Obligations.PcAtCommit := by
  intro s t h
  obtain ⟨hp, w, i, u, hw, hi, hu, rfl⟩ := step_next s t h
  exact ⟨i, (executes_iff s i).mpr ⟨hp, w, hw, hi⟩, u.pc_tick.trans (exec_advance_pc hu)⟩

/-! ### The invariant -/

theorem skipTarget_le {a : Word} (h : a.toNat ≤ 0xFFE) (cond : Prop) [Decidable cond] :
    (skipTarget a cond).toNat ≤ 0x1002 := by
  unfold skipTarget
  split
  · bv_omega
  · bv_omega

/-- Where the table of R25 can lead from an address that a fetch accepts: a return to at most 0x1000,
a Bnnn to at most 0xFFF + 0xFF. -/
theorem commitPc_le {i : Instr} {s : State} (hpc : s.pc.toNat ≤ 0xFFE) (hstack : s.stackBounded)
    (hret : i = .ret → 0 < s.sp.val) : (commitPc s i).toNat ≤ 0x10FE := by
  have hnext : (s.pc + 2).toNat ≤ 0x1000 := by bv_omega
  have haddr (nnn : Addr) : (zext16 nnn).toNat ≤ 0xFFF := by
    have := nnn.isLt
    simp [zext16]
    omega
  cases i with
  | jp nnn | call nnn => exact (haddr nnn).trans (by decide)
  | jpV0 nnn =>
    have hnnn := haddr nnn
    have hv0 : (zext16 (s.getV 0)).toNat ≤ 0xFF := by
      have := (s.getV 0).isLt
      simp [zext16]
      omega
    simp only [commitPc, BitVec.toNat_add]
    omega
  | ret =>
    have hpos := hret rfl
    have hlt : s.sp.val - 1 < 16 := by omega
    have hslot := hstack ⟨s.sp.val - 1, hlt⟩ (Nat.sub_lt hpos Nat.one_pos)
    simp only [commitPc, Vector.getElem?_eq_getElem hlt, Option.getD_some]
    exact hslot.trans (by decide)
  | seImm | sneImm | seReg | sneReg | skp | sknp =>
    exact (skipTarget_le hpc _).trans (by decide)
  | ldVxK =>
    simp only [commitPc]
    split
    · omega
    · omega
  | _ => exact hnext.trans (by decide)

/-- A call pushes a return address of at most 0x1000, a return frees a slot, and no other instruction
touches the stack (R30, R31). -/
theorem exec_stackBounded {i : Instr} {s t : State} (h : exec i s = .next t) (hs : s.stackBounded)
    (hpc : s.pc.toNat ≤ 0x1000) : t.stackBounded := by
  cases i with
  | call nnn =>
    obtain ⟨hsp, rfl⟩ := exec_call_next h
    intro j hj
    have hj : j.val < s.sp.val + 1 := hj
    simp only [State.stack_setPc]
    by_cases hjs : s.sp.val = j.val
    · simpa [hjs] using hpc
    · have := hs j (by omega)
      simpa [Vector.getElem_set_ne, hjs] using this
  | ret =>
    obtain ⟨n, hn, hsp, rfl⟩ := exec_ret_next h
    intro j hj
    have hj : j.val < n := hj
    exact hs j (by omega)
  | _ =>
    obtain ⟨hstack, hsp⟩ := (exec_frame h).stack rfl
    intro j hj
    rw [hsp] at hj
    rw [hstack]
    exact hs j hj

theorem step_inv {s t : State} (hs : s.Inv) (h : step s = .next t) : t.Inv := by
  obtain ⟨hmem, -, hstack⟩ := hs
  obtain ⟨-, w, i, u, hw, -, hu, rfl⟩ := step_next s t h
  obtain ⟨hlt, -⟩ := (fetch_eq_ok s w).mp hw
  have hpc : s.pc.toNat ≤ 0xFFE := by simp only [Config.memSize] at hlt; omega
  have hret : i = .ret → 0 < s.sp.val := by
    rintro rfl
    obtain ⟨n, -, hsp, -⟩ := exec_ret_next hu
    exact Nat.lt_of_lt_of_eq n.succ_pos hsp.symm
  have hadvance : s.advance.pc.toNat ≤ 0x1000 := by rw [State.pc_advance]; bv_omega
  have hupc : u.pcBounded := by
    rw [State.pcBounded, exec_advance_pc hu]
    exact commitPc_le hpc hstack hret
  have humem : u.memWf := exec_memWf hu hmem
  have hustack : u.stackBounded := exec_stackBounded hu hstack hadvance
  exact ⟨humem, hupc, hustack⟩

/-- Settles O17: memory, PC and stack each by its own lemma over the executed instruction. -/
theorem stepKeepsInvariant : Obligations.StepKeepsInvariant := fun _ _ => step_inv

/-- Settles O18: no cell is listed, PC is 0x200 and no slot is occupied. -/
theorem resetMeetsInvariant : Obligations.ResetMeetsInvariant := by
  have hinit (font queue count) : (State.initial font queue count).Inv :=
    ⟨⟨.nil, by simp [State.initial]⟩, (by decide : (0x0200 : Word).toNat ≤ 0x10FE),
      fun _ hj => absurd hj (Nat.not_lt_zero _)⟩
  exact ⟨hinit, hinit _ _ _⟩

/-! ### Runs -/

theorem coreRun_succ_eq_next {M : Host.Core} {n : Nat} {s t : M.State} :
    M.run (n + 1) s = .next t ↔ ∃ u, M.step s = .next u ∧ M.run n u = .next t := by
  rw [Host.Core.run]
  cases M.step s <;> simp

theorem runSteps_succ_eq_next {n : Nat} {s t : State} :
    runSteps (n + 1) s = .next t ↔ ∃ u, step s = .next u ∧ runSteps n u = .next t :=
  coreRun_succ_eq_next (M := core)

/-- What every step keeps, every run keeps. -/
theorem runSteps_keeps {P : State → Prop} (hstep : ∀ s t, P s → step s = .next t → P t) {n : Nat}
    {s t : State} (hs : P s) (h : runSteps n s = .next t) : P t := by
  induction n generalizing s with
  | zero => exact Host.Outcome.next.inj h ▸ hs
  | succ n ih =>
    obtain ⟨u, hu, hrest⟩ := runSteps_succ_eq_next.mp h
    exact ih (hstep s u hs hu) hrest

/-- Settles O19, by the invariant of O17 along the run. -/
theorem noRunCarriesPcPast10FE : Obligations.NoRunCarriesPcPast10FE := by
  intro n s t hs h
  have ht : t.Inv := runSteps_keeps (fun _ _ => step_inv) hs h
  exact ⟨ht.2.1, ht⟩

/-! ### The host's operations -/

theorem stateAfter_eq_or (op : HostOp) (s : State) :
    stateAfter op s = s ∨ runHostOp op s = .next (stateAfter op s) := by
  unfold stateAfter
  split
  · next h => exact .inr h
  · exact .inl rfl
  · exact .inl rfl

theorem stateAfter_of_refused {op : HostOp} {s : State} {r : Refusal} (h : runHostOp op s = .refused r) :
    stateAfter op s = s := by
  simp [stateAfter, h]

/-- Memory is in its canonical form over the font `font`. -/
def State.canonicalOver (font : FontRom) (s : State) : Prop := s.memWf ∧ s.fontRom = font

theorem runHostOp_canonicalOver {op : HostOp} {font : FontRom} {s t : State} (hs : s.canonicalOver font)
    (h : runHostOp op s = .next t) : t.canonicalOver font := by
  obtain ⟨hmem, hfont⟩ := hs
  cases op with
  | initializeCore => cases h; exact ⟨(resetMeetsInvariant.1 _ _ _).1, hfont⟩
  | loadProgram bytes =>
    obtain ⟨-, hlen, rfl⟩ := loadProgram_next s bytes t h
    exact ⟨s.memWf_storeBytes hmem _ _ (Nat.add_le_add_left hlen Config.progBase), hfont⟩
  | step =>
    obtain ⟨-, w, i, u, -, -, hu, rfl⟩ := step_next s t h
    have humem : u.memWf := exec_memWf hu hmem
    exact ⟨humem, (exec_frame hu).font.trans hfont⟩
  | skip => obtain ⟨-, rfl⟩ := skip_next s t h; exact ⟨hmem, hfont⟩
  | setKey index pressed => obtain ⟨-, rfl⟩ := setKey_next s index pressed t h; exact ⟨hmem, hfont⟩
  | offerRandom => cases h; exact ⟨hmem, hfont⟩

theorem stateAfterAll_canonicalOver {ops : List HostOp} {font : FontRom} {s : State}
    (hs : s.canonicalOver font) : (stateAfterAll ops s).canonicalOver font := by
  induction ops generalizing s with
  | nil => exact hs
  | cons op ops ih =>
    apply ih
    obtain h | h := stateAfter_eq_or op s
    · rwa [h]
    · exact runHostOp_canonicalOver hs h

/-- Settles O20, by induction on the operations. -/
theorem hostOperationsKeepMemoryCanonical : Obligations.HostOperationsKeepMemoryCanonical :=
  fun _ _ hs => stateAfterAll_canonicalOver ⟨hs, rfl⟩

/-- Settles O9: each operation tests its phase or its index before anything else. -/
theorem outOfProtocolIsRefused : Obligations.OutOfProtocolIsRefused := by
  intro s
  refine ⟨fun hinit => ?_, fun hloaded bytes => ?_, fun index pressed hindex => ?_⟩
  · have hstep : step s = .refused .notLoaded := by simp [step, stepWithOutcome, hinit]
    have hskip : skip s = .refused .notLoaded := by simp [skip, hinit]
    exact ⟨hstep, hskip, stateAfter_of_refused hstep, stateAfter_of_refused hskip⟩
  · have hload : loadProgram bytes s = .refused .alreadyLoaded := by simp [loadProgram, hloaded]
    exact ⟨hload, stateAfter_of_refused hload⟩
  · have hkey : setKey index pressed s = .refused (.keyOutOfRange index) :=
      dif_neg (Nat.not_lt.mpr hindex)
    exact ⟨hkey, stateAfter_of_refused hkey⟩

/-- Settles O22: the memory of R39 lists no cell, so every address reads as it does unlisted. -/
theorem initializeGivesResetValues : Obligations.InitializeGivesResetValues := by
  intro s
  have hmem (a : Nat) : (initializeCore s).readByte a = unlisted s.fontRom a := rfl
  refine ⟨rfl, fun r => ?_, rfl, rfl, rfl, fun j => ?_, rfl, rfl, fun p => ?_, fun k => ?_, rfl,
    fun a ha => ?_, fun a ha => ?_⟩
  · simp [State.getV, initializeCore, State.initial]
  · simp [initializeCore, State.initial]
  · simp [Display.pixel, initializeCore, State.initial]
  · simp [initializeCore, State.initial]
  · simp [hmem, unlisted, ha]
  · simp [hmem, unlisted, Nat.not_lt.mpr ha]

end Sys2Proof.Machine

/-! SUPPORT. The statements of `20_memory.md`, settled. -/
namespace Sys2Proof.Machine

/-! ### Who writes memory (R65) -/

/-- An execution changes a byte only as Fx33 or Fx55, and only among the bytes it stores at I. -/
theorem exec_changes_byte {i : Instr} {s t : State} {a : Nat} (h : exec i s = .next t)
    (hne : t.readByte a ≠ s.readByte a) : ∃ x,
      (i = .ldBVx x ∧ indexAddress s 0 ≤ a ∧ a < indexAddress s 0 + 3) ∨
      (i = .storeRegs x ∧ indexAddress s 0 ≤ a ∧ a < indexAddress s 0 + (x.val + 1)) := by
  have hin : (writesOf s i).memStart ≤ a ∧ a < (writesOf s i).memStart + (writesOf s i).memLen :=
    Decidable.not_not.mp fun hout => hne ((exec_frame h).memory a hout)
  cases i with
  | ldBVx x => exact ⟨x, .inl ⟨rfl, hin⟩⟩
  | storeRegs x => exact ⟨x, .inr ⟨rfl, hin⟩⟩
  | _ => exact absurd hin.2 (Nat.not_lt.mpr hin.1)

theorem step_changes_byte {s t : State} {a : Nat} (h : step s = .next t)
    (hne : t.readByte a ≠ s.readByte a) : ∃ x,
      (s.executes (.ldBVx x) ∧ indexAddress s 0 ≤ a ∧ a < indexAddress s 0 + 3) ∨
      (s.executes (.storeRegs x) ∧ indexAddress s 0 ≤ a ∧ a < indexAddress s 0 + (x.val + 1)) := by
  obtain ⟨hp, w, i, u, hw, hi, hu, rfl⟩ := step_next s t h
  have hexec : s.executes i := (executes_iff s i).mpr ⟨hp, w, hw, hi⟩
  obtain ⟨x, ⟨rfl, hin⟩ | ⟨rfl, hin⟩⟩ := exec_changes_byte hu hne
  · exact ⟨x, .inl ⟨hexec, hin⟩⟩
  · exact ⟨x, .inr ⟨hexec, hin⟩⟩

theorem loadProgram_changes_byte {bytes : List Byte} {s t : State} {a : Nat}
    (h : loadProgram bytes s = .next t) (hne : t.readByte a ≠ s.readByte a) :
    Config.progBase ≤ a ∧ a < Config.progBase + bytes.length := by
  obtain ⟨-, -, rfl⟩ := loadProgram_next s bytes t h
  exact Decidable.not_not.mp fun hout =>
    hne (Memory.read_writeBytes_outside s.fontRom s.mem bytes hout)

/-- Settles O21, by cases on the operation: the others that answer leave memory as it is. -/
theorem onlyStoresAndLoadsWriteMemory : Obligations.OnlyStoresAndLoadsWriteMemory := by
  intro op s a _ hne
  have hnext : runHostOp op s = .next (stateAfter op s) :=
    (stateAfter_eq_or op s).resolve_left fun h => hne (congrArg (·.readByte a) h)
  cases op with
  | initializeCore => exact .inl rfl
  | loadProgram bytes => exact .inr (.inl ⟨bytes, rfl, loadProgram_changes_byte hnext hne⟩)
  | step => exact .inr (.inr ⟨rfl, step_changes_byte hnext hne⟩)
  | skip =>
    obtain ⟨-, h⟩ := skip_next s _ hnext
    exact absurd (congrArg (·.readByte a) h) hne
  | setKey index pressed =>
    obtain ⟨_, h⟩ := setKey_next s index pressed _ hnext
    exact absurd (congrArg (·.readByte a) h) hne
  | offerRandom => exact absurd rfl hne

/-! ### What a store of the registers leaves for the reads after it (R61, R63) -/

section Transfers

variable {s : State} {x : Reg}

theorem exec_storeRegs_ok (h : indexAddress s 0 + (x.val + 1) ≤ Config.memSize) :
    exec (.storeRegs x) s = .next (s.storeBytes (indexAddress s 0) (s.getVUpTo x)) :=
  guardRange_ok s _ _ _ (.inr h)

theorem exec_loadRegs_ok (h : indexAddress s 0 + (x.val + 1) ≤ Config.memSize) :
    exec (.loadRegs x) s = .next (s.setVUpTo x fun k => s.readByte (indexAddress s k)) :=
  guardRange_ok s _ _ _ (.inr h)

/-- After Fx55 the byte at I + k is V[k]. -/
theorem readByte_storeBytes_getVUpTo (hs : s.memWf) {k : Reg} (hk : k.val ≤ x.val) :
    (s.storeBytes (indexAddress s 0) (s.getVUpTo x)).readByte (indexAddress s k.val) = s.getV k := by
  have hle : indexAddress s 0 ≤ indexAddress s k.val := Nat.add_le_add_left k.val.zero_le _
  have hoffset : indexAddress s k.val - indexAddress s 0 = k.val := Nat.add_sub_cancel_left ..
  rw [s.readByte_storeBytes hs, if_pos hle, hoffset, s.getVUpTo_eq x k.val hk, Option.getD_some]

end Transfers

/-- Settles O47: the load reads at the same I the bytes the store left there. -/
theorem storeThenLoadGivesTheRegistersBack : Obligations.StoreThenLoadGivesTheRegistersBack := by
  intro x s hs hrange
  refine ⟨_, exec_storeRegs_ok hrange, fun v => ⟨_, exec_loadRegs_ok hrange, fun k hk => ?_⟩⟩
  rw [State.getV_setVUpTo, if_pos (Fin.le_def.mp hk)]
  exact readByte_storeBytes_getVUpTo hs hk

/-- Settles O48: the two bytes fetched are two neighbours of the stored ones. -/
theorem fetchSeesTheStore : Obligations.FetchSeesTheStore := by
  intro x s hs hrange
  refine ⟨_, exec_storeRegs_ok hrange, fun k k' hsucc hk' p hp => ?_⟩
  have hk' : k'.val ≤ x.val := hk'
  have hk : k.val ≤ x.val := by omega
  have hp' : p.toNat + 1 = indexAddress s k'.val := by rw [hp, hsucc]; rfl
  have hlast : indexAddress s k'.val < 4096 := by
    simp only [indexAddress] at hrange ⊢
    omega
  refine (fetch_eq_ok _ _).mpr ⟨hp'.trans_lt hlast, ?_⟩
  rw [State.pc_setPc, State.readByte_setPc, State.readByte_setPc, hp', hp,
    readByte_storeBytes_getVUpTo hs hk, readByte_storeBytes_getVUpTo hs hk']

end Sys2Proof.Machine

/-! SUPPORT. The decoder and the encoder are inverse to each other: a word is put together again from its
fields, and each group of the decoder keeps every field of the word. -/
namespace Sys2Proof

/-! ### A word put together from its fields (R82, R83) -/

/-- Two neighbouring fields of a word are the field that spans both. -/
theorem extractLsb'_append_neighbour (w : Word) (start len len' : Nat) :
    w.extractLsb' (start + len) len' ++ w.extractLsb' start len = w.extractLsb' start (len' + len) := by
  rw [BitVec.extractLsb'_append_extractLsb'_eq_extractLsb' rfl]

@[simp] theorem wordA_fields (w : Word) : wordA (opField w) (nnnField w) = w :=
  (extractLsb'_append_neighbour w 0 12 4).trans BitVec.extractLsb'_eq_self

@[simp] theorem wordRI_fields (w : Word) : wordRI (opField w) (xField w) (kkField w) = w :=
  (congrArg (· ++ kkField w) (extractLsb'_append_neighbour w 8 4 4)).trans
    ((extractLsb'_append_neighbour w 0 8 8).trans BitVec.extractLsb'_eq_self)

@[simp] theorem wordRRN_fields (w : Word) : wordRRN (opField w) (xField w) (yField w) (nField w) = w := by
  have hhigh : (opField w ++ regNibble (xField w)) ++ regNibble (yField w) = w.extractLsb' 4 12 :=
    (congrArg (· ++ regNibble (yField w)) (extractLsb'_append_neighbour w 8 4 4)).trans
      (extractLsb'_append_neighbour w 4 4 8)
  exact (congrArg (· ++ nField w) hhigh).trans
    ((extractLsb'_append_neighbour w 0 4 12).trans BitVec.extractLsb'_eq_self)

variable {w : Word} {op : BitVec 4}

theorem wordA_of_opField (h : (opField w).toNat = op.toNat) : wordA op (nnnField w) = w := by
  rw [← BitVec.eq_of_toNat_eq h, wordA_fields]

theorem wordRI_of_opField (h : (opField w).toNat = op.toNat) :
    wordRI op (xField w) (kkField w) = w := by
  rw [← BitVec.eq_of_toNat_eq h, wordRI_fields]

theorem wordRRN_of_opField_nField {n : BitVec 4} (h : (opField w).toNat = op.toNat) (hn : nField w = n) :
    wordRRN op (xField w) (yField w) n = w := by
  rw [← BitVec.eq_of_toNat_eq h, ← hn, wordRRN_fields]

/-! ### The decoder after the encoder -/

theorem decodeRow_encodeWord {i : Instr} (hi : i.wellFormed = true) :
    decodeRow (encodeWord i) = some i := by
  cases i with
  | cls | ret => rfl
  | jp | call | ldI | jpV0 | seImm | sneImm | ldImm | addImm | rnd | seReg | sneReg =>
    simp [encodeWord, decodeRow]
  | drw x y n =>
    have hn : n < 16 := Nat.lt_succ_of_le (of_decide_eq_true hi)
    simp [encodeWord, decodeRow, hn]
  | ldReg | orReg | andReg | xorReg | addReg | subReg | shr | subnReg | shl =>
    simp [encodeWord, decodeRow, decodeGroup8]
  | skp | sknp => simp [encodeWord, decodeRow, decodeGroupE]
  | ldVxDt | ldVxK | ldDtVx | ldStVx | addIVx | ldFVx | ldBVx | storeRegs | loadRegs =>
    simp [encodeWord, decodeRow, decodeGroupF]

/-! ### The encoder after the decoder -/

section Groups

variable {i : Instr} {x y : Reg} {n : BitVec 4} {kk : Byte}

theorem encodeWord_of_decodeGroup0 (h : decodeGroup0 w = some i) :
    i.wellFormed = true ∧ encodeWord i = w := by
  unfold decodeGroup0 at h
  split at h
  · cases h; exact ⟨rfl, Eq.symm ‹_›⟩
  · split at h
    · cases h; exact ⟨rfl, Eq.symm ‹_›⟩
    · cases h

theorem encodeWord_of_decodeGroup8 (h : decodeGroup8 x y n = some i) :
    i.wellFormed = true ∧ encodeWord i = wordRRN 0x8 x y n := by
  unfold decodeGroup8 at h
  split at h
  case h_10 => cases h
  all_goals
    rename_i hn
    cases h
    exact ⟨rfl, congrArg (wordRRN 0x8 x y) (BitVec.eq_of_toNat_eq hn.symm)⟩

theorem encodeWord_of_decodeGroupE (h : decodeGroupE x kk = some i) :
    i.wellFormed = true ∧ encodeWord i = wordRI 0xE x kk := by
  unfold decodeGroupE at h
  split at h
  case h_3 => cases h
  all_goals
    rename_i hkk
    cases h
    exact ⟨rfl, congrArg (wordRI 0xE x) (BitVec.eq_of_toNat_eq hkk.symm)⟩

theorem encodeWord_of_decodeGroupF (h : decodeGroupF x kk = some i) :
    i.wellFormed = true ∧ encodeWord i = wordRI 0xF x kk := by
  unfold decodeGroupF at h
  split at h
  case h_10 => cases h
  all_goals
    rename_i hkk
    cases h
    exact ⟨rfl, congrArg (wordRI 0xF x) (BitVec.eq_of_toNat_eq hkk.symm)⟩

/-- A count that a nibble holds is well formed, and its word keeps the nibble (R83). -/
theorem encodeWord_drw_toNat (x y : Reg) (n : BitVec 4) :
    (Instr.drw x y n.toNat).wellFormed = true ∧ encodeWord (.drw x y n.toNat) = wordRRN 0xD x y n :=
  ⟨decide_eq_true (Nat.le_of_lt_succ n.isLt), by rw [encodeWord, BitVec.ofNat_toNat, BitVec.setWidth_eq]⟩

end Groups

/-- The groups one by one: the case `h_k` is that of group k − 1. -/
theorem encodeWord_of_decodeRow {i : Instr} (h : decodeRow w = some i) :
    i.wellFormed = true ∧ encodeWord i = w := by
  unfold decodeRow at h
  split at h
  case h_1 => exact encodeWord_of_decodeGroup0 h
  case h_2 hop | h_3 hop | h_11 hop | h_12 hop => cases h; exact ⟨rfl, wordA_of_opField hop⟩
  case h_4 hop | h_5 hop | h_7 hop | h_8 hop | h_13 hop => cases h; exact ⟨rfl, wordRI_of_opField hop⟩
  case h_6 hop | h_10 hop =>
    split at h
    · next hn =>
      cases h
      exact ⟨rfl, wordRRN_of_opField_nField hop hn⟩
    · cases h
  case h_9 hop =>
    obtain ⟨hwf, henc⟩ := encodeWord_of_decodeGroup8 h
    exact ⟨hwf, henc.trans (wordRRN_of_opField_nField hop rfl)⟩
  case h_14 hop =>
    cases h
    obtain ⟨hwf, henc⟩ := encodeWord_drw_toNat (xField w) (yField w) (nField w)
    exact ⟨hwf, henc.trans (wordRRN_of_opField_nField hop rfl)⟩
  case h_15 hop =>
    obtain ⟨hwf, henc⟩ := encodeWord_of_decodeGroupE h
    exact ⟨hwf, henc.trans (wordRI_of_opField hop)⟩
  case h_16 hop =>
    obtain ⟨hwf, henc⟩ := encodeWord_of_decodeGroupF h
    exact ⟨hwf, henc.trans (wordRI_of_opField hop)⟩
  case h_17 => cases h

/-! ### The two are inverse to each other -/

theorem decodeWord_eq_ok {i : Instr} : decodeWord w = .ok i ↔ decodeRow w = some i := by
  cases hrow : decodeRow w <;> simp [decodeWord, hrow]

theorem decodeWord_eq_error {r : Reject} :
    decodeWord w = .error r ↔ decodeRow w = none ∧ r = .illegal w := by
  cases hrow : decodeRow w <;> simp [decodeWord, hrow, eq_comm]

/-- The decoder and the encoder are inverse to each other on the well-formed instructions. -/
theorem decodeWord_eq_ok_iff {i : Instr} :
    decodeWord w = .ok i ↔ i.wellFormed = true ∧ encodeWord i = w := by
  rw [decodeWord_eq_ok]
  constructor
  · exact encodeWord_of_decodeRow
  · rintro ⟨hwf, rfl⟩
    exact decodeRow_encodeWord hwf

/-- The first two bytes are read as one word and the rest is left over (R57, R89). -/
theorem decode_of_decodeWord {i : Instr} (h : decodeWord w = .ok i) (rest : List Byte) :
    decode (hiByte w :: loByte w :: rest) = .ok (i, rest) := by
  simp [decode, h]

end Sys2Proof

/-! SUPPORT. The decoder and the opcode map: the words of each row are the words of its instructions, one
lemma per shape of R82. -/
namespace Sys2Proof

/-! ### The words of a row (R82, R85) -/

/-- `i` is an instruction of the row named `name`, and its word is `w`. -/
def Instr.EncodesAs (i : Instr) (w : Word) (name : String) : Prop :=
  i.wellFormed = true ∧ encodeWord i = w ∧ i.mnemonic = name

/-- Every word that matches the row `r` is the word of an instruction of that row. -/
def OpcodeRow.Encoded (r : OpcodeRow) : Prop :=
  ∀ w : Word, w &&& r.mask = r.value → ∃ i : Instr, i.EncodesAs w r.mnemonic

section Rows

variable {name : String} {value : Word}

/-- The rows that fix every bit. -/
theorem encoded_of_whole (i : Instr) (hi : i.EncodesAs value name) :
    OpcodeRow.Encoded ⟨name, 0xFFFF, value⟩ := by
  intro w (hw : w &&& BitVec.allOnes 16 = value)
  rw [BitVec.and_allOnes] at hw
  exact ⟨i, hw ▸ hi⟩

/-- The rows of shape A: the group is fixed and nnn is free. -/
theorem encoded_of_addr (op : BitVec 4) (f : Addr → Instr) (hv : wordA op 0 = value)
    (hf : ∀ nnn, (f nnn).EncodesAs (wordA op nnn) name) :
    OpcodeRow.Encoded ⟨name, 0xF000, value⟩ := by
  intro w (hw : w &&& 0xF000 = value)
  rw [← wordA_fields w, wordA_and_mask, ← hv] at hw
  have hop : opField w = op := by simpa using congrArg opField hw
  have hfields : wordA op (nnnField w) = w := by rw [← hop, wordA_fields]
  exact ⟨_, hfields ▸ hf (nnnField w)⟩

/-- The rows of shape RI: the group is fixed, x and kk are free. -/
theorem encoded_of_reg_byte (op : BitVec 4) (f : Reg → Byte → Instr) (hv : wordRI op 0 0 = value)
    (hf : ∀ x kk, (f x kk).EncodesAs (wordRI op x kk) name) :
    OpcodeRow.Encoded ⟨name, 0xF000, value⟩ := by
  intro w (hw : w &&& 0xF000 = value)
  rw [← wordRI_fields w, wordRI_and_mask, ← hv] at hw
  have hop : opField w = op := by simpa using congrArg opField hw
  have hfields : wordRI op (xField w) (kkField w) = w := by rw [← hop, wordRI_fields]
  exact ⟨_, hfields ▸ hf (xField w) (kkField w)⟩

/-- The rows of shape R: the group and the low byte are fixed, x is free. -/
theorem encoded_of_reg (op : BitVec 4) (kk : Byte) (f : Reg → Instr) (hv : wordRI op 0 kk = value)
    (hf : ∀ x, (f x).EncodesAs (wordRI op x kk) name) :
    OpcodeRow.Encoded ⟨name, 0xF0FF, value⟩ := by
  intro w (hw : w &&& 0xF0FF = value)
  rw [← wordRI_fields w, wordRI_and_byte_mask, ← hv] at hw
  have hop : opField w = op := by simpa using congrArg opField hw
  have hkk : kkField w = kk := by simpa using congrArg kkField hw
  have hfields : wordRI op (xField w) kk = w := by rw [← hop, ← hkk, wordRI_fields]
  exact ⟨_, hfields ▸ hf (xField w)⟩

/-- The rows of shape RR: the group and the low nibble are fixed, x and y are free. -/
theorem encoded_of_reg_reg (op n : BitVec 4) (f : Reg → Reg → Instr) (hv : wordRRN op 0 0 n = value)
    (hf : ∀ x y, (f x y).EncodesAs (wordRRN op x y n) name) :
    OpcodeRow.Encoded ⟨name, 0xF00F, value⟩ := by
  intro w (hw : w &&& 0xF00F = value)
  rw [← wordRRN_fields w, wordRRN_and_nibble_mask, ← hv] at hw
  have hop : opField w = op := by simpa using congrArg opField hw
  have hn : nField w = n := by simpa using congrArg nField hw
  have hfields : wordRRN op (xField w) (yField w) n = w := by rw [← hop, ← hn, wordRRN_fields]
  exact ⟨_, hfields ▸ hf (xField w) (yField w)⟩

end Rows

/-- The row of shape RRN: the group is fixed, x, y and the count n are free. -/
theorem encoded_drw : OpcodeRow.Encoded ⟨"DRW_Vx__Vy__nibble", 0xF000, 0xD000⟩ := by
  intro w (hw : w &&& 0xF000 = wordRRN 0xD 0 0 0)
  rw [← wordRRN_fields w, wordRRN_and_mask] at hw
  have hop : opField w = 0xD := by simpa using congrArg opField hw
  obtain ⟨hwf, henc⟩ := encodeWord_drw_toNat (xField w) (yField w) (nField w)
  exact ⟨_, hwf, by rw [henc, ← hop, wordRRN_fields], rfl⟩

theorem opcodeMapLow_encoded : ∀ r ∈ opcodeMapLow, r.Encoded :=
  List.forall_iff_forall_mem.mp
    ⟨encoded_of_whole .cls ⟨rfl, rfl, rfl⟩,
     encoded_of_whole .ret ⟨rfl, rfl, rfl⟩,
     encoded_of_addr 0x1 .jp rfl fun _ => ⟨rfl, rfl, rfl⟩,
     encoded_of_addr 0x2 .call rfl fun _ => ⟨rfl, rfl, rfl⟩,
     encoded_of_reg_byte 0x3 .seImm rfl fun _ _ => ⟨rfl, rfl, rfl⟩,
     encoded_of_reg_byte 0x4 .sneImm rfl fun _ _ => ⟨rfl, rfl, rfl⟩,
     encoded_of_reg_reg 0x5 0x0 .seReg rfl fun _ _ => ⟨rfl, rfl, rfl⟩,
     encoded_of_reg_byte 0x6 .ldImm rfl fun _ _ => ⟨rfl, rfl, rfl⟩,
     encoded_of_reg_byte 0x7 .addImm rfl fun _ _ => ⟨rfl, rfl, rfl⟩,
     encoded_of_reg_reg 0x8 0x0 .ldReg rfl fun _ _ => ⟨rfl, rfl, rfl⟩,
     encoded_of_reg_reg 0x8 0x1 .orReg rfl fun _ _ => ⟨rfl, rfl, rfl⟩,
     encoded_of_reg_reg 0x8 0x2 .andReg rfl fun _ _ => ⟨rfl, rfl, rfl⟩,
     encoded_of_reg_reg 0x8 0x3 .xorReg rfl fun _ _ => ⟨rfl, rfl, rfl⟩,
     encoded_of_reg_reg 0x8 0x4 .addReg rfl fun _ _ => ⟨rfl, rfl, rfl⟩,
     encoded_of_reg_reg 0x8 0x5 .subReg rfl fun _ _ => ⟨rfl, rfl, rfl⟩,
     encoded_of_reg_reg 0x8 0x6 .shr rfl fun _ _ => ⟨rfl, rfl, rfl⟩,
     encoded_of_reg_reg 0x8 0x7 .subnReg rfl fun _ _ => ⟨rfl, rfl, rfl⟩,
     encoded_of_reg_reg 0x8 0xE .shl rfl fun _ _ => ⟨rfl, rfl, rfl⟩,
     encoded_of_reg_reg 0x9 0x0 .sneReg rfl fun _ _ => ⟨rfl, rfl, rfl⟩⟩

theorem opcodeMapHigh_encoded : ∀ r ∈ opcodeMapHigh, r.Encoded :=
  List.forall_iff_forall_mem.mp
    ⟨encoded_of_addr 0xA .ldI rfl fun _ => ⟨rfl, rfl, rfl⟩,
     encoded_of_addr 0xB .jpV0 rfl fun _ => ⟨rfl, rfl, rfl⟩,
     encoded_of_reg_byte 0xC .rnd rfl fun _ _ => ⟨rfl, rfl, rfl⟩,
     encoded_drw,
     encoded_of_reg 0xE 0x9E .skp rfl fun _ => ⟨rfl, rfl, rfl⟩,
     encoded_of_reg 0xE 0xA1 .sknp rfl fun _ => ⟨rfl, rfl, rfl⟩,
     encoded_of_reg 0xF 0x07 .ldVxDt rfl fun _ => ⟨rfl, rfl, rfl⟩,
     encoded_of_reg 0xF 0x0A .ldVxK rfl fun _ => ⟨rfl, rfl, rfl⟩,
     encoded_of_reg 0xF 0x15 .ldDtVx rfl fun _ => ⟨rfl, rfl, rfl⟩,
     encoded_of_reg 0xF 0x18 .ldStVx rfl fun _ => ⟨rfl, rfl, rfl⟩,
     encoded_of_reg 0xF 0x1E .addIVx rfl fun _ => ⟨rfl, rfl, rfl⟩,
     encoded_of_reg 0xF 0x29 .ldFVx rfl fun _ => ⟨rfl, rfl, rfl⟩,
     encoded_of_reg 0xF 0x33 .ldBVx rfl fun _ => ⟨rfl, rfl, rfl⟩,
     encoded_of_reg 0xF 0x55 .storeRegs rfl fun _ => ⟨rfl, rfl, rfl⟩,
     encoded_of_reg 0xF 0x65 .loadRegs rfl fun _ => ⟨rfl, rfl, rfl⟩⟩

theorem opcodeMap_encoded : ∀ r ∈ opcodeMap, r.Encoded :=
  List.forall_mem_append.mpr ⟨opcodeMapLow_encoded, opcodeMapHigh_encoded⟩

section Matching

variable {w : Word}

/-- Every word that matches a row decodes to an instruction of that row. -/
theorem decodeWord_of_matchesWord {r : OpcodeRow} (hr : r ∈ opcodeMap) (hm : r.matchesWord w = true) :
    ∃ i, decodeWord w = .ok i ∧ i.mnemonic = r.mnemonic := by
  obtain ⟨i, hwf, henc, hname⟩ := opcodeMap_encoded r hr w (of_decide_eq_true hm)
  exact ⟨i, decodeWord_eq_ok_iff.mpr ⟨hwf, henc⟩, hname⟩

theorem opcodeMap_mnemonics_nodup : (opcodeMap.map (·.mnemonic)).Nodup := by decide

open Laws.EncodedInRow in
/-- The word of every instruction matches the row of its mnemonic. -/
theorem encodedInRow (i : Instr) : Statement i := by
  cases i with
  | cls => exact cls
  | ret => exact ret
  | jp => exact jp _
  | call => exact call _
  | seImm => exact seImm _ _
  | sneImm => exact sneImm _ _
  | seReg => exact seReg _ _
  | ldImm => exact ldImm _ _
  | addImm => exact addImm _ _
  | ldReg => exact ldReg _ _
  | orReg => exact orReg _ _
  | andReg => exact andReg _ _
  | xorReg => exact xorReg _ _
  | addReg => exact addReg _ _
  | subReg => exact subReg _ _
  | shr => exact shr _ _
  | subnReg => exact subnReg _ _
  | shl => exact shl _ _
  | sneReg => exact sneReg _ _
  | ldI => exact ldI _
  | jpV0 => exact jpV0 _
  | rnd => exact rnd _ _
  | drw => exact drw _ _ _
  | skp => exact skp _
  | sknp => exact sknp _
  | ldVxDt => exact ldVxDt _
  | ldVxK => exact ldVxK _
  | ldDtVx => exact ldDtVx _
  | ldStVx => exact ldStVx _
  | addIVx => exact addIVx _
  | ldFVx => exact ldFVx _
  | ldBVx => exact ldBVx _
  | storeRegs => exact storeRegs _
  | loadRegs => exact loadRegs _

/-- Every word that decodes matches the row of its instruction. -/
theorem matchesWord_of_decodeWord {i : Instr} (h : decodeWord w = .ok i) :
    ∃ r ∈ opcodeMap, r.mnemonic = i.mnemonic ∧ r.matchesWord w = true := by
  obtain ⟨-, rfl⟩ := decodeWord_eq_ok_iff.mp h
  exact encodedInRow i

/-- The words of no row are those the decoder rejects, with the raw word (R87). -/
theorem decodeWord_eq_illegal_iff :
    decodeWord w = .error (.illegal w) ↔ ∀ r ∈ opcodeMap, r.matchesWord w = false := by
  constructor
  · intro hd r hr
    refine Bool.eq_false_iff.mpr fun hm => ?_
    obtain ⟨i, hi, -⟩ := decodeWord_of_matchesWord hr hm
    cases hd.symm.trans hi
  · intro hrows
    cases hd : decodeWord w with
    | ok i =>
      obtain ⟨r, hr, -, hm⟩ := matchesWord_of_decodeWord hd
      cases (hrows r hr).symm.trans hm
    | error reject => rw [(decodeWord_eq_error.mp hd).2]

end Matching

end Sys2Proof

/-! SUPPORT. The statements of `30_encoding.md`, settled. -/
namespace Sys2Proof.Machine

/-! ### Decoding and encoding -/

/-- Settles O1, by evaluating the decoder on each word. -/
theorem sampleWordsDecode : Obligations.SampleWordsDecode := by
  unfold Obligations.SampleWordsDecode
  decide

/-- Settles O2, by the decoder's answer to the word of each instruction. -/
theorem decodeOfEncode : Obligations.DecodeOfEncode := by
  intro i hi
  have hword : decodeWord (encodeWord i) = .ok i := decodeWord_eq_ok_iff.mpr ⟨hi, rfl⟩
  exact ⟨hword, decode_of_decodeWord hword⟩

/-- Settles O3: each group of the decoder keeps every field of the word. -/
theorem encodeOfDecode : Obligations.EncodeOfDecode := fun _ _ => decodeWord_eq_ok_iff.mp

/-- Settles O4: a mnemonic names one row, so the row a word matches is that of the instruction it decodes
to. -/
theorem decoderIsTheOpcodeMap : Obligations.DecoderIsTheOpcodeMap := by
  refine ⟨fun w r hr => ⟨decodeWord_of_matchesWord hr, ?_⟩, fun w => ?_⟩
  · rintro ⟨i, hi, hname⟩
    obtain ⟨r', hr', hname', hm⟩ := matchesWord_of_decodeWord hi
    rwa [List.inj_on_of_nodup_map opcodeMap_mnemonics_nodup hr hr' (hname.symm.trans hname'.symm)]
  · refine (List.pairwise_map.mp opcodeMap_mnemonics_nodup).imp_of_mem ?_
    rintro r r' hr hr' hne ⟨hm, hm'⟩
    obtain ⟨i, hi, hname⟩ := decodeWord_of_matchesWord hr hm
    obtain ⟨i', hi', hname'⟩ := decodeWord_of_matchesWord hr' hm'
    cases hi.symm.trans hi'
    exact hne (hname.symm.trans hname')

/-- Settles O5, by the words the decoder rejects. -/
theorem illegalWordsRaiseDecodeError : Obligations.IllegalWordsRaiseDecodeError := by
  intro w
  rw [← decodeWord_eq_illegal_iff]
  refine ⟨fun hd => ⟨hd, fun s hs => ?_⟩, And.left⟩
  obtain ⟨hp, hf⟩ := fetch_of_fetches s w hs
  exact ⟨_, step_of_decode_error s w _ hp hf hd, rfl, rfl⟩

/-! ### A word placed where the core fetches, and the step that runs it (R57, R80, R81) -/

/-- A table word of 16 bits is the word itself. -/
theorem ofNat_toNat_mod (w : Word) : BitVec.ofNat 16 (w.toNat % 2 ^ 16) = w := by
  rw [Nat.mod_eq_of_lt w.isLt, BitVec.ofNat_toNat, BitVec.setWidth_eq]

theorem decodeTableWord_of_decodeWord {w : Word} {i : Instr} (h : decodeWord w = .ok i) :
    decodeTableWord 16 w.toNat = some i := by
  simp only [decodeTableWord, ofNat_toNat_mod, decode_of_decodeWord h]

theorem joinBytes_toNat (hi lo : Byte) : (joinBytes hi lo).toNat = 256 * hi.toNat + lo.toNat := by
  rw [joinBytes, BitVec.toNat_append, ← Nat.shiftLeft_add_eq_or_of_lt lo.isLt, Nat.shiftLeft_eq,
    Nat.mul_comm]

section Step

variable {s : State} {w : Word} {i : Instr}

theorem State.placeWord_of_lt (h : s.pc.toNat + 1 < Config.memSize) :
    s.placeWord w = s.storeBytes s.pc.toNat [hiByte w, loByte w] := by
  have hcheck : checkRange s.pc.toNat Config.insnBytes = none :=
    (checkRange_eq_none _ _).mpr (.inr h)
  rw [State.placeWord, hcheck]

theorem State.withFetchWord_fetches (hs : s.memWf) (h : s.pc.toNat + 1 < Config.memSize) :
    (s.withFetchWord 16 w.toNat).fetches w := by
  rw [State.withFetchWord, ofNat_toNat_mod, State.placeWord_of_lt h]
  have hread := s.readByte_storeBytes hs s.pc.toNat [hiByte w, loByte w]
  exact ⟨rfl, h, (hread _).trans (by simp), (hread _).trans (by simp)⟩

theorem stepWithOutcome_of_exec_next {t : State} (hi : s.executes i) (ht : exec i s.advance = .next t) :
    stepWithOutcome s = .next (commit i t) := by
  obtain ⟨hp, w, hf, hd⟩ := (executes_iff s i).mp hi
  simp [stepWithOutcome, hp, hf, hd, ht]

theorem stepWithOutcome_of_exec_fault {f : Fault} (hi : s.executes i) (hx : exec i s.advance = .fault f) :
    stepWithOutcome s = .fault f := by
  obtain ⟨hp, w, hf, hd⟩ := (executes_iff s i).mp hi
  simp [stepWithOutcome, hp, hf, hd, hx]

theorem step_of_exec_next {t : State} (hi : s.executes i) (ht : exec i s.advance = .next t) :
    step s = .next t.tick := by
  rw [step, stepWithOutcome_of_exec_next hi ht, commit]

theorem step_of_exec_fault {f : Fault} (hi : s.executes i) (hx : exec i s.advance = .fault f) :
    step s = .fault f := by
  rw [step, stepWithOutcome_of_exec_fault hi hx]

end Step

/-- Settles O6: the bytes stored at PC are those of the word. -/
theorem placedWordIsExecuted : Obligations.PlacedWordIsExecuted :=
  fun _ w _ hs hpc hd =>
    ⟨⟨w, State.withFetchWord_fetches hs hpc, hd⟩, decodeTableWord_of_decodeWord hd⟩

/-- Settles O7: fetch and decode of the step are those of `State.executes`. -/
theorem stepRunsTheDecodedInstruction : Obligations.StepRunsTheDecodedInstruction := fun _ _ hi =>
  ⟨fun _ ht => ⟨step_of_exec_next hi ht, stepWithOutcome_of_exec_next hi ht⟩,
   fun _ hf => ⟨step_of_exec_fault hi hf, stepWithOutcome_of_exec_fault hi hf⟩⟩

/-- Settles O8, by what fetch answers on either side of the last address. -/
theorem fetchIsBigEndianAndChecked : Obligations.FetchIsBigEndianAndChecked := by
  refine fun s hp => ⟨fun hpc => ?_, fun hpc => ?_, fun hpc => ?_⟩
  · exact ⟨_, (fetch_eq_ok s _).mpr ⟨Nat.add_lt_add_right hpc 1, rfl⟩, joinBytes_toNat ..⟩
  · have hf : fetch s = .error 0x1000 := (fetch_eq_error s _).mpr (by rw [hpc]; decide)
    exact ⟨_, step_of_fetch_error s _ hp hf, rfl, rfl⟩
  · have hf : fetch s = .error s.pc.toNat :=
      (fetch_eq_error s _).mpr ⟨Nat.le_succ_of_le hpc, (max_eq_left hpc).symm⟩
    exact ⟨_, step_of_fetch_error s _ hp hf, rfl, rfl⟩

end Sys2Proof.Machine

/-! SUPPORT. The statements of `40_control_flow.md`, settled. -/
namespace Sys2Proof.Machine

/-! ### Targets of jumps and calls (R83, R104) -/

/-- `zext_16` of a field that fits keeps its value (R8). -/
theorem toNat_zext16 {n : Nat} (h : n ≤ 16) (b : BitVec n) : (zext16 b).toNat = b.toNat :=
  BitVec.toNat_setWidth_of_le h

@[simp] theorem toNat_addrOperand (nnn : Addr) : (addrOperand nnn).toNat = nnn.toNat :=
  toNat_zext16 (by decide) nnn

/-- The largest target is 0xFFF + 0xFF, so the sum of R104 never wraps. -/
@[simp] theorem toNat_offsetTarget (nnn : Addr) (s : State) :
    (offsetTarget nnn s).toNat = nnn.toNat + (s.getV 0).toNat := by
  have hnnn := nnn.isLt
  have hv0 := (s.getV 0).isLt
  rw [offsetTarget, BitVec.toNat_add, toNat_zext16 (by decide), toNat_zext16 (by decide)]
  omega

/-- Settles O28: the frame is that of the instruction, and neither target wraps. -/
theorem jumpsSetPc : Obligations.JumpsSetPc := fun nnn s =>
  ⟨⟨_, rfl, toNat_addrOperand nnn, exec_frame (i := .jp nnn) rfl⟩,
   ⟨_, rfl, toNat_offsetTarget nnn s, exec_frame (i := .jpV0 nnn) rfl⟩⟩

/-! ### Calls and returns (R30, R31, R101, R103) -/

section CallAndReturn

variable {s : State}

/-- 2nnn with a slot free (R30, R103). -/
theorem exec_call_ok (nnn : Addr) (hsp : s.sp.val < Config.stackDepth) :
    exec (.call nnn) s = .next (State.setPc { s with
      stack := s.stack.set s.sp.val s.pc
      sp := ⟨s.sp.val + 1, Nat.succ_lt_succ hsp⟩ } (addrOperand nnn)) :=
  push_ok s s.pc (·.setPc (addrOperand nnn)) hsp

/-- 2nnn with no slot free (R30). -/
theorem exec_call_full (nnn : Addr) (hsp : s.sp.val = Config.stackDepth) :
    exec (.call nnn) s = .fault (.stackOverflow (s.pc - 2) s.sp.val) :=
  push_full s s.pc (·.setPc (addrOperand nnn)) hsp

/-- 00EE with a slot occupied (R31, R101). -/
theorem exec_ret_ok {n : Nat} (hn : n < Config.stackDepth) (hsp : s.sp.val = n + 1) :
    exec .ret s = .next (State.setPc { s with sp := ⟨n, Nat.lt_succ_of_lt hn⟩ } s.stack[n]) :=
  pop_ok s (fun a t => t.setPc a) n hn hsp

/-- 00EE with no slot occupied (R31). -/
theorem exec_ret_empty (hsp : s.sp.val = 0) :
    exec .ret s = .fault (.stackUnderflow (s.pc - 2) 0) :=
  pop_empty s (fun a t => t.setPc a) hsp

end CallAndReturn

/-- Settles O29: SP decides whether the call finds a slot free. -/
theorem callPushesAndJumps : Obligations.CallPushesAndJumps := by
  refine fun nnn s => ⟨fun hsp => ?_, fun hfull => ⟨_, exec_call_full nnn hfull, rfl, hfull⟩⟩
  have hcall := exec_call_ok nnn hsp
  refine ⟨_, hcall, toNat_addrOperand nnn, rfl, fun j => ?_, exec_frame hcall⟩
  exact (Vector.getElem_set hsp j.isLt).trans (if_congr eq_comm rfl rfl)

/-- Settles O30: SP decides whether the return finds a slot occupied. -/
theorem returnPops : Obligations.ReturnPops := by
  refine fun s => ⟨fun n hn hsp => ?_, fun hempty => ⟨_, exec_ret_empty hempty, rfl, rfl⟩⟩
  have hret := exec_ret_ok hn hsp
  exact ⟨_, hret, rfl, rfl, rfl, exec_frame hret⟩

/-- Settles O31: the call changes neither memory nor phase, so the next step finds the return at nnn, and
the slot it pops is the one the call has just pushed. -/
theorem callThenReturnBalances : Obligations.CallThenReturnBalances := by
  intro s nnn hcall hsp hnnn hhi hlo
  obtain ⟨t, ht, htpc, htsp, htstack, hframe⟩ := (callPushesAndJumps nnn s.advance).1 hsp
  have hbyte (a : Nat) : t.readByte a = s.readByte a := hframe.memory a (by simp)
  have hloaded : t.phase = .loaded := hframe.phase.trans ((executes_iff s _).mp hcall).1
  have hret : t.tick.executes .ret := by
    have hrange : t.pc.toNat + 1 < Config.memSize := by
      rw [htpc]
      exact Nat.succ_lt_succ hnnn
    have hhiByte : t.readByte t.pc.toNat = 0x00 := by rw [hbyte, htpc, hhi]
    have hloByte : t.readByte (t.pc.toNat + 1) = 0xEE := by rw [hbyte, htpc, hlo]
    exact ⟨0x00EE, ⟨hloaded, hrange, hhiByte, hloByte⟩, by decide⟩
  obtain ⟨u, hu, hupc, husp, -, -⟩ := (returnPops t.tick.advance).1 s.sp.val hsp htsp
  have hpushed : t.stack[s.sp.val] = s.pc + 2 := by simpa using htstack ⟨s.sp.val, hsp⟩
  exact ⟨t.tick, u.tick, step_of_exec_next hcall ht, step_of_exec_next hret hu,
    hupc.trans hpushed, Fin.ext husp⟩

end Sys2Proof.Machine

/-! SUPPORT. The statements of `41_conditional_skip.md`, settled. -/
namespace Sys2Proof.Machine

section Skips

variable {s : State}

/-! ### The skip an instruction makes (R110) -/

/-- An instruction that answers a skip, and may write PC alone, adds 2 to PC if the condition holds, and
changes nothing else (R110). -/
theorem skips_of_exec {i : Instr} {cond : Bool} {P : Prop} [Decidable P]
    (hexec : exec i s = .next (s.skipIf cond)) (hwrites : writesOf s i = { pc := true })
    (hcond : cond = true ↔ P) :
    ∃ t, exec i s = .next t ∧ t.pc = (if P then s.pc + 2 else s.pc) ∧ Frame { pc := true } s t :=
  ⟨_, hexec, (s.pc_skipIf cond).trans (if_congr hcond rfl rfl), hwrites ▸ exec_frame hexec⟩

/-! ### The key skips (R115, R116) -/

/-- The key port with V[x] the key k (R167). -/
theorem withKey_of_eq {x : Reg} {k : Fin 16} (rest : Bool → State) (hk : (s.getV x).toNat = k.val) :
    withKey x s rest = .next (rest s.key[k.val]) := by
  have hx : (s.getV x).toNat < 16 := hk ▸ k.isLt
  simpa only [hk] using withKey_ok s x rest hx

/-- Ex9E with V[x] the key k (R115). -/
theorem exec_skp_of_eq {x : Reg} {k : Fin 16} (hk : (s.getV x).toNat = k.val) :
    exec (.skp x) s = .next (s.skipIf s.key[k.val]) :=
  withKey_of_eq s.skipIf hk

/-- ExA1 with V[x] the key k (R116). -/
theorem exec_sknp_of_eq {x : Reg} {k : Fin 16} (hk : (s.getV x).toNat = k.val) :
    exec (.sknp x) s = .next (s.skipIf !s.key[k.val]) :=
  withKey_of_eq (fun pressed => s.skipIf !pressed) hk

/-- The key port with V[x] no key (R115, R116; D11). -/
theorem withKey_faultsWith {x : Reg} (rest : Bool → State) (hx : 15 < (s.getV x).toNat) :
    FaultsWith (withKey x s rest) .keyIndexError (s.getV x).toNat :=
  ⟨_, withKey_fault s x rest hx, rfl, rfl⟩

end Skips

/-- Settles O32: each comparison is the condition of the instruction's skip. -/
theorem comparisonsSkip : Obligations.ComparisonsSkip := fun x y kk _ =>
  ⟨skips_of_exec (i := .seImm x kk) rfl rfl beq_iff_eq,
   skips_of_exec (i := .sneImm x kk) rfl rfl bne_iff_ne,
   skips_of_exec (i := .seReg x y) rfl rfl beq_iff_eq,
   skips_of_exec (i := .sneReg x y) rfl rfl bne_iff_ne⟩

/-- Settles O33: V[x] decides whether the key port answers a key or faults. -/
theorem keysSkip : Obligations.KeysSkip := by
  refine fun x s => ⟨fun k hk => ?_, fun hx => ?_⟩
  · exact ⟨skips_of_exec (exec_skp_of_eq hk) rfl Iff.rfl,
      skips_of_exec (exec_sknp_of_eq hk) rfl (by rw [Bool.not_eq_true'])⟩
  · exact ⟨withKey_faultsWith s.skipIf hx, withKey_faultsWith (fun pressed => s.skipIf !pressed) hx⟩

end Sys2Proof.Machine

/-! SUPPORT. The statements of `42_register_alu.md`, settled. -/
namespace Sys2Proof.Machine

/-! ### Loads, 7xkk and the bitwise operations: one register, no flag (R121 to R126) -/

/-- Settles O34: each load is one register write. -/
theorem loadsSetOneRegister : Obligations.LoadsSetOneRegister := fun x y kk s =>
  ⟨⟨_, rfl, s.getV_setV_self x _, exec_frame (i := .ldImm x kk) rfl⟩,
   ⟨_, rfl, s.getV_setV_self x _, exec_frame (i := .ldReg x y) rfl⟩⟩

/-- Settles O35: the byte written is the sum, whose width is that of the register. -/
theorem addImmediateWraps : Obligations.AddImmediateWraps := fun x kk s =>
  ⟨_, rfl, by rw [State.getV_setV_self, BitVec.toNat_add], exec_frame (i := .addImm x kk) rfl⟩

/-- Settles O36: the byte written is the operation of the two registers, bit by bit. -/
theorem logicIsBitwise : Obligations.LogicIsBitwise := fun x y s =>
  ⟨⟨_, rfl, fun _ => by rw [State.getV_setV_self, BitVec.getLsbD_or], exec_frame (i := .orReg x y) rfl⟩,
   ⟨_, rfl, fun _ => by rw [State.getV_setV_self, BitVec.getLsbD_and], exec_frame (i := .andReg x y) rfl⟩,
   ⟨_, rfl, fun _ => by rw [State.getV_setV_self, BitVec.getLsbD_xor], exec_frame (i := .xorReg x y) rfl⟩⟩

/-! ### The values of the flags (R127 to R131) -/

theorem toNat_carryFlag (a b : Byte) :
    (carryFlag a b).toNat = if a.toNat + b.toNat > 255 then 1 else 0 := by
  simp only [carryFlag, flagByte, decide_eq_true_eq]
  split <;> rfl

theorem toNat_greaterFlag (a b : Byte) :
    (greaterFlag a b).toNat = if a.toNat > b.toNat then 1 else 0 := by
  simp only [greaterFlag, flagByte, decide_eq_true_eq]
  split <;> rfl

theorem toNat_lowBitFlag (a : Byte) : (lowBitFlag a).toNat = a.toNat % 2 := by
  rw [lowBitFlag, BitVec.toNat_and]
  exact Nat.and_one_is_mod a.toNat

theorem toNat_highBitFlag (a : Byte) : (highBitFlag a).toNat = a.toNat / 128 := by
  rw [highBitFlag, BitVec.toNat_ushiftRight, Nat.shiftRight_eq_div_pow]

theorem toNat_sub_byte (a b : Byte) : (a - b).toNat = (a.toNat + 256 - b.toNat) % 256 := by
  have hb := b.isLt
  rw [BitVec.toNat_sub]
  omega

theorem toNat_shiftRight_one (a : Byte) : (a >>> 1).toNat = a.toNat / 2 := by
  rw [BitVec.toNat_ushiftRight, Nat.shiftRight_eq_div_pow, pow_one]

theorem toNat_shiftLeft_one (a : Byte) : (a <<< 1).toNat = 2 * a.toNat % 256 := by
  rw [BitVec.toNat_shiftLeft, Nat.shiftLeft_eq, pow_one, Nat.mul_comm]

/-! ### The flag, then the result (R119; D6) -/

section FlagThenResult

variable {s : State} {x y : Reg} {flag result : Byte → Byte → Byte}

/-- With x other than F the flag stays in VF. -/
theorem getV_vF_flagThenResult (hx : x ≠ vF) :
    (flagThenResult x y flag result s).getV vF = flag (s.getV x) (s.getV y) := by
  simp [flagThenResult_spec, hx.symm]

/-- With x other than F the first operand is V[x] as it stood. -/
theorem getV_flagThenResult (hx : x ≠ vF) :
    (flagThenResult x y flag result s).getV x =
      result (s.getV x) (if y = vF then flag (s.getV x) (s.getV y) else s.getV y) := by
  simp [flagThenResult_spec, hx]

/-- With x = F the result replaces the flag, which is its first operand. -/
theorem getV_vF_flagThenResult_vF :
    (flagThenResult vF y flag result s).getV vF =
      result (flag (s.getV vF) (s.getV y)) (if y = vF then flag (s.getV vF) (s.getV y) else s.getV y) := by
  simp [flagThenResult_spec]

/-- An instruction that writes a flag and then a result, by the numbers its flag and its result stand for:
VF and V[x] after it, in each of the four combinations of x and y with F. `d` is the result of the flag
with itself. -/
theorem flag_result_of_exec {i : Instr} {c r : Nat → Nat → Nat} {d : Nat → Nat}
    (hexec : exec i s = .next (flagThenResult x y flag result s))
    (hwrites : writesOf s i = { regs := [x, vF] })
    (hflag : ∀ a b, (flag a b).toNat = c a.toNat b.toNat)
    (hresult : ∀ a b, (result a b).toNat = r a.toNat b.toNat)
    (hself : ∀ a b, r (c a b) (c a b) = d (c a b)) :
    ∃ t, exec i s = .next t ∧ Frame { regs := [x, 15] } s t ∧
      (let a := (s.getV x).toNat
       let b := (s.getV y).toNat
       (x ≠ 15 → (t.getV 15).toNat = c a b) ∧
       (x ≠ 15 → y ≠ 15 → (t.getV x).toNat = r a b) ∧
       (x ≠ 15 → y = 15 → (t.getV x).toNat = r a (c a b)) ∧
       (x = 15 → y ≠ 15 → (t.getV 15).toNat = r (c a b) b) ∧
       (x = 15 → y = 15 → (t.getV 15).toNat = d (c a b))) := by
  refine ⟨_, hexec, hwrites ▸ exec_frame hexec, fun hx => ?_, fun hx hy => ?_, fun hx hy => ?_,
    fun hx hy => ?_, fun hx hy => ?_⟩
  · rw [getV_vF_flagThenResult hx, hflag]
  · rw [getV_flagThenResult hx, if_neg hy, hresult]
  · rw [getV_flagThenResult hx, if_pos hy, hresult, hflag]
  · rw [hx, getV_vF_flagThenResult_vF, if_neg hy, hresult, hflag]
  · rw [hx, getV_vF_flagThenResult_vF, if_pos hy, hresult, hflag, hself]

end FlagThenResult

/-- Settles O37: with x = y = F the sum is that of the carry with itself, which never wraps. -/
theorem addSetsCarry : Obligations.AddSetsCarry := fun x y _ =>
  flag_result_of_exec (i := .addReg x y) (d := fun c => 2 * c)
    (c := fun a b => if a + b > 255 then 1 else 0) (r := fun a b => (a + b) % 256)
    rfl rfl toNat_carryFlag BitVec.toNat_add (fun _ _ => by split <;> rfl)

/-- Settles O38: with x = y = F the flag is subtracted from itself. -/
theorem subtractSetsGreater : Obligations.SubtractSetsGreater := fun x y _ =>
  flag_result_of_exec (i := .subReg x y) (d := fun _ => 0)
    (c := fun a b => if a > b then 1 else 0) (r := fun a b => (a + 256 - b) % 256)
    rfl rfl toNat_greaterFlag toNat_sub_byte (fun _ _ => by rw [Nat.add_sub_cancel_left])

/-- Settles O39: the same with the operands exchanged. -/
theorem reverseSubtractSetsGreater : Obligations.ReverseSubtractSetsGreater := fun x y _ =>
  flag_result_of_exec (i := .subnReg x y) (d := fun _ => 0)
    (c := fun a b => if b > a then 1 else 0) (r := fun a b => (b + 256 - a) % 256)
    rfl rfl (fun a b => toNat_greaterFlag b a) (fun a b => toNat_sub_byte b a)
    (fun _ _ => by rw [Nat.add_sub_cancel_left])

/-- Settles O40: flag and result read the first operand alone; with x = F that is the flag, one bit. -/
theorem shiftsMoveOneBit : Obligations.ShiftsMoveOneBit := by
  refine fun x y s => ⟨⟨_, rfl, exec_frame (i := .shr x y) rfl, fun hx => ⟨?_, ?_⟩, ?_⟩,
    ⟨_, rfl, exec_frame (i := .shl x y) rfl, fun hx => ⟨?_, ?_⟩, ?_⟩⟩
  · rw [getV_flagThenResult hx, toNat_shiftRight_one]
  · rw [getV_vF_flagThenResult hx, toNat_lowBitFlag]
  · rintro rfl
    apply BitVec.eq_of_toNat_eq
    rw [getV_vF_flagThenResult_vF, toNat_shiftRight_one, toNat_lowBitFlag]
    exact Nat.div_eq_of_lt (Nat.mod_lt _ Nat.two_pos)
  · rw [getV_flagThenResult hx, toNat_shiftLeft_one]
  · rw [getV_vF_flagThenResult hx, toNat_highBitFlag]
  · rintro rfl
    have hV := (s.getV vF).isLt
    rw [getV_vF_flagThenResult_vF, toNat_shiftLeft_one, toNat_highBitFlag]
    exact Nat.mod_eq_of_lt (by omega)

/-! ### Cxkk (R132, R133) -/

/-- Settles O41: the register write keeps the random source as the draw left it. -/
theorem randomByteIsMasked : Obligations.RandomByteIsMasked := by
  intro x kk s
  have hVx : (s.dropRandom.setV x (s.randomByte &&& kk)).getV x = s.randomByte &&& kk :=
    State.getV_setV_self ..
  refine ⟨_, rfl, exec_frame (i := .rnd x kk) rfl, hVx, fun r rest hqueue => ?_,
    fun hempty => (s.random_of_empty hempty).2⟩
  obtain ⟨hr, hdrop⟩ := s.random_of_queue r rest hqueue
  exact ⟨hr ▸ hVx, hdrop⟩

end Sys2Proof.Machine

/-! SUPPORT. The statements of `43_index_memory.md`, settled. -/
namespace Sys2Proof.Machine

/-! ### The index register (R141 to R143) -/

/-- The largest glyph address is 5 · 0xFF, so the product of R143 never wraps. -/
@[simp] theorem toNat_glyphAddress (x : Reg) (s : State) :
    (glyphAddress x s).toNat = 5 * (s.getV x).toNat := by
  have hVx := (s.getV x).isLt
  have hfive : (5 : Word).toNat = 5 := rfl
  rw [glyphAddress, BitVec.toNat_mul, toNat_zext16 (by decide), hfive]
  omega

/-- Settles O42: each load is one write of I, and neither value wraps. -/
theorem indexLoads : Obligations.IndexLoads := fun nnn x s =>
  ⟨⟨_, rfl, toNat_addrOperand nnn, exec_frame (i := .ldI nnn) rfl⟩,
   ⟨_, rfl, toNat_glyphAddress x s, exec_frame (i := .ldFVx x) rfl⟩⟩

/-- Settles O43: the word written is the sum, whose width is that of I, and the frame keeps every
register. -/
theorem addToIndexKeepsFlag : Obligations.AddToIndexKeepsFlag := fun x s =>
  ⟨_, rfl, by rw [State.i_setI, BitVec.toNat_add, toNat_zext16 (by decide)],
    exec_frame (i := .addIVx x) rfl⟩

/-! ### The memory transfers (R144 to R146) -/

section MemoryTransfers

variable {s : State}

/-- A guarded access with an address above 0xFFF names the first such address (R55; D13). -/
theorem guardRange_faultsWith {a len : Nat} (ok : State) (hlen : 0 < len)
    (h : Config.memSize < a + len) :
    FaultsWith (guardRange s a len ok) .addressError (max a Config.memSize) :=
  ⟨_, guardRange_fault s a len ok hlen h, rfl, rfl⟩

/-- Each stored byte is read back at its place (R56). -/
theorem readByte_storeBytes_add (hs : s.memWf) (a : Nat) {ws : List Byte} {k : Nat} {w : Byte}
    (hk : ws[k]? = some w) : (s.storeBytes a ws).readByte (a + k) = w := by
  rw [s.readByte_storeBytes hs, if_pos (Nat.le_add_right a k), Nat.add_sub_cancel_left, hk,
    Option.getD_some]

/-- A stored digit is read back whole: no digit exceeds the byte it is taken from (R144). -/
theorem toNat_readByte_storeBytes_bcdDigits (hs : s.memWf) (a : Nat) {b : Byte} {k digit : Nat}
    (hk : (bcdDigits b)[k]? = some (BitVec.ofNat 8 digit)) (hle : digit ≤ b.toNat) :
    ((s.storeBytes a (bcdDigits b)).readByte (a + k)).toNat = digit := by
  rw [readByte_storeBytes_add hs a hk, BitVec.toNat_ofNat]
  exact Nat.mod_eq_of_lt (hle.trans_lt b.isLt)

/-- Fx33 with its three addresses in range (R144). -/
theorem exec_ldBVx_ok {x : Reg} (h : indexAddress s 0 + 3 ≤ Config.memSize) :
    exec (.ldBVx x) s = .next (s.storeBytes (indexAddress s 0) (bcdDigits (s.getV x))) :=
  guardRange_ok s _ _ _ (.inr h)

end MemoryTransfers

/-- Settles O44: the range check decides, and the byte at I + k is the k-th digit. -/
theorem bcdStoresThreeDigits : Obligations.BcdStoresThreeDigits := by
  refine fun x s hs => ⟨fun hrange => ?_, guardRange_faultsWith _ (by decide)⟩
  have hstore := exec_ldBVx_ok (x := x) hrange
  refine ⟨_, hstore, ?hundreds, ?tens, ?units, exec_frame hstore⟩
  case hundreds =>
    exact toNat_readByte_storeBytes_bcdDigits (k := 0) hs _ rfl (Nat.div_le_self ..)
  case tens =>
    exact toNat_readByte_storeBytes_bcdDigits (k := 1) hs _ rfl
      ((Nat.mod_le ..).trans (Nat.div_le_self ..))
  case units =>
    exact toNat_readByte_storeBytes_bcdDigits (k := 2) hs _ rfl (Nat.mod_le ..)

/-- Settles O45: the range check decides, and the byte at I + k is V[k]. -/
theorem storeRegistersAtIndex : Obligations.StoreRegistersAtIndex := by
  refine fun x s hs => ⟨fun hrange => ?_, guardRange_faultsWith _ x.val.succ_pos⟩
  have hstore := exec_storeRegs_ok hrange
  exact ⟨_, hstore, fun _ hk => readByte_storeBytes_getVUpTo hs (Fin.le_def.mp hk), exec_frame hstore⟩

/-- Settles O46: the range check decides, and V[k] is the byte at I + k for the registers up to V[x]. -/
theorem loadRegistersFromIndex : Obligations.LoadRegistersFromIndex := by
  refine fun x s => ⟨fun hrange => ?_, guardRange_faultsWith _ x.val.succ_pos⟩
  have hload := exec_loadRegs_ok hrange
  exact ⟨_, hload, fun k hk => (s.getV_setVUpTo x k _).trans (if_pos (Fin.le_def.mp hk)),
    exec_frame hload⟩

end Sys2Proof.Machine

/-! SUPPORT. The statements of `44_display.md`, settled. -/
namespace Sys2Proof.Machine

/-! ### The outcome of a step (R155, R161) -/

/-- The instructions that report draw-needed (R155; D8). -/
theorem drawNeeded_iff (i : Instr) :
    drawNeeded i = true ↔ i = .cls ∨ ∃ x y n, i = .drw x y n := by
  cases i with
  | cls => exact iff_of_true rfl (.inl rfl)
  | drw x y n => exact iff_of_true rfl (.inr ⟨x, y, n, rfl⟩)
  | _ => simp [drawNeeded]

/-- Fx18 alone writes ST (R168). -/
theorem writesOf_st_of_ne (s : State) {i : Instr} (hi : ∀ x, i ≠ .ldStVx x) : (writesOf s i).st = false := by
  cases i with
  | ldStVx x => exact absurd rfl (hi x)
  | _ => rfl

/-- Settles O16: the outcome is taken of the executed instruction and of the state it left before the
tick. -/
theorem stepOutcomeFlags : Obligations.StepOutcomeFlags := by
  intro s t o h
  obtain ⟨hp, w, i, u, hw, hi, hu, -, rfl⟩ := stepWithOutcome_next s t o h
  have hsound : (stepOutcome i u).soundRequested = true ↔ u.st ≠ 0 := bne_iff_ne
  refine ⟨i, (executes_iff s i).mpr ⟨hp, w, hw, hi⟩, drawNeeded_iff i, ?_, fun hne => ?_, bne_iff_ne⟩
  · rintro x rfl
    cases hu
    exact hsound
  · have hst : u.st = s.st := (exec_frame hu).st (writesOf_st_of_ne _ hne)
    rwa [hst] at hsound

/-! ### The snapshot (R156) -/

theorem linearIndex_lt (p : Pixel) : linearIndex p < Config.dispW * Config.dispH := by
  have hcol : p.1.val < 64 := p.1.isLt
  have hrow : p.2.val < 32 := p.2.isLt
  simp only [linearIndex, Config.dispW, Config.dispH]
  omega

theorem wrapPixel_linearIndex (p : Pixel) :
    wrapPixel (linearIndex p) (linearIndex p / Config.dispW) = p := by
  have hcol : p.1.val < 64 := p.1.isLt
  have hrow : p.2.val < 32 := p.2.isLt
  refine Prod.ext (Fin.ext ?_) (Fin.ext ?_)
  · simp only [wrapPixel, linearIndex, Config.dispW]
    omega
  · simp only [wrapPixel, linearIndex, Config.dispW, Config.dispH]
    omega

/-- Settles O27: the place of an index is that of the pixel it numbers. -/
theorem snapshotIsRowMajor : Obligations.SnapshotIsRowMajor := by
  refine fun s => ⟨by simp [displaySnapshot, Config.dispW, Config.dispH], fun p => ?_⟩
  change (displaySnapshot s)[linearIndex p]? = _
  rw [displaySnapshot, List.getElem?_map, List.getElem?_range (linearIndex_lt p), Option.map_some,
    wrapPixel_linearIndex]

/-! ### 00E0 (R153) -/

@[simp] theorem Display.pixel_clear (p : Pixel) : Display.pixel Display.clear p = false := by
  simp [Display.pixel, Display.clear]

/-- Settles O49: the instruction answers in every state, and its outcome does not look at the display. -/
theorem clearScreenClearsEveryPixel : Obligations.ClearScreenClearsEveryPixel := fun _ =>
  ⟨⟨_, rfl, Display.pixel_clear, exec_frame (i := .cls) rfl⟩,
   fun hi => ⟨_, _, stepWithOutcome_of_exec_next hi rfl, rfl⟩⟩

/-! ### Dxyn (R151, R152, R154) -/

section Draw

variable {s t : State} {x y : Reg} {n : Nat}

/-- A pixel is the wrapped one exactly when each of its coordinates is, on its own (R152). -/
theorem eq_wrapPixel_iff (q : Pixel) (col row : Nat) :
    q = wrapPixel col row ↔ q.1.val = col % 64 ∧ q.2.val = row % 32 := by
  rw [wrapPixel, Prod.ext_iff, Fin.ext_iff, Fin.ext_iff]

/-- The pixels a Dxyn touches, by their coordinates (R151, R152). -/
theorem mem_drawPixels_iff (q : Pixel) :
    q ∈ drawPixels x y n s ↔ ∃ r c, r < n ∧ c < 8 ∧
      (s.readByte (indexAddress s r)).getLsbD (7 - c) = true ∧
      q.1.val = ((s.getV x).toNat + c) % 64 ∧ q.2.val = ((s.getV y).toNat + r) % 32 := by
  simp only [mem_drawPixels, eq_wrapPixel_iff]

/-- Dxyn with every sprite row in range: what it makes of each pixel, and its collision flag. The pixels it
touches are distinct, so each is flipped once (R151, R154). -/
theorem exec_drw_ok (hn : n ≤ 15) (hrange : n = 0 ∨ indexAddress s 0 + n ≤ Config.memSize) :
    ∃ t, exec (.drw x y n) s = .next t ∧
      (∀ q, Display.pixel t.disp q = (Display.pixel s.disp q ^^ decide (q ∈ drawPixels x y n s))) ∧
      ((∃ q ∈ drawPixels x y n s, Display.pixel s.disp q = true) → t.getV vF = 1) ∧
      ((∀ q ∈ drawPixels x y n s, Display.pixel s.disp q = false) → t.getV vF = 0) := by
  have hdistinct := nodup_drawPixels s x y n (hn.trans (by decide))
  have hflag := blit_flag_of_nodup s.disp 0 _ hdistinct
  refine ⟨_, guardRange_ok s _ _ _ hrange, blit_pixel_of_nodup s.disp 0 _ hdistinct, fun hset => ?_,
    fun hclear => ?_⟩
  · rw [State.getV_setV_self, hflag, if_pos hset]
  · rw [State.getV_setV_self, hflag, if_neg (by simpa using hclear)]

/-- Dxyn writes neither I nor memory, so one that leaves its coordinate registers as they were leaves the
pixels an equal Dxyn touches next. -/
theorem drawPixels_of_exec_drw (h : exec (.drw x y n) s = .next t) (hx : t.getV x = s.getV x)
    (hy : t.getV y = s.getV y) : drawPixels x y n t = drawPixels x y n s := by
  have hi : t.i = s.i := (exec_frame h).index rfl
  have hbyte (a : Nat) : t.readByte a = s.readByte a := (exec_frame h).memory a (by simp [writesOf])
  simp only [drawPixels, spriteRows, State.readBytes, indexAddress, hx, hy, hi, hbyte]

end Draw

/-- Settles O50: the pixels hit are those the compositor is given. -/
theorem drawXorsTheSprite : Obligations.DrawXorsTheSprite := by
  intro x y n s hn hrange hits
  have hhits (q : Pixel) : hits q ↔ q ∈ drawPixels x y n s := (mem_drawPixels_iff q).symm
  obtain ⟨t, ht, hpixel, hcollision, hnone⟩ := exec_drw_ok (x := x) (y := y) hn hrange
  simp only [hhits]
  refine ⟨t, ht, exec_frame ht, fun q hq => ?_, fun q hq => ?_, hcollision, hnone⟩
  · simp [hpixel, hq]
  · simp [hpixel, hq]

/-- Settles O52: both draws touch the same pixels, so the second one undoes each flip of the first, and the
pixels it turns off are those the first one set. -/
theorem drawingTwiceRestores : Obligations.DrawingTwiceRestores := by
  intro x y n s t hn hfirst hx hy hits
  have hhits (q : Pixel) : hits q ↔ q ∈ drawPixels x y n s := (mem_drawPixels_iff q).symm
  obtain ⟨hrange, -⟩ := guardRange_next hfirst
  obtain ⟨t', ht', hpixel, -, -⟩ := exec_drw_ok (x := x) (y := y) hn hrange
  cases hfirst.symm.trans ht'
  have hi : t.i = s.i := (exec_frame hfirst).index rfl
  have hrange' : n = 0 ∨ indexAddress t 0 + n ≤ Config.memSize := by rwa [indexAddress, hi]
  obtain ⟨u, hu, hpixel', hcollision, hnone⟩ := exec_drw_ok (x := x) (y := y) hn hrange'
  rw [drawPixels_of_exec_drw hfirst hx hy] at hpixel' hcollision hnone
  have hflipped : ∀ q ∈ drawPixels x y n s, Display.pixel t.disp q = !Display.pixel s.disp q :=
    fun q hq => by simp [hpixel, hq]
  simp only [hhits]
  refine ⟨u, hu, fun q => by simp [hpixel', hpixel], ?_, fun hset => hnone fun q hq => ?_⟩
  · rintro ⟨q, hq, hclear⟩
    exact hcollision ⟨q, hq, by rw [hflipped q hq, hclear, Bool.not_false]⟩
  · rw [hflipped q hq, hset q hq, Bool.not_true]

/-- One sprite row with only its leftmost bit set, at I = 0x300, over a display whose column 0 is set: the
sprite bit drawn at (0, 0) meets a set pixel. -/
def spriteOverSetPixel : State :=
  ((State.reset.setI 0x300).storeBytes 0x300 [0x80]).setDisp (Vector.replicate Config.dispH 1)

/-- Refutes O53: the first draw clears the only pixel of the sprite, so the second one turns it on again and
turns none off. -/
theorem not_secondDrawAlwaysCollides : ¬ Obligations.SecondDrawAlwaysCollides := by
  intro h
  have hset := h 0 0 1 spriteOverSetPixel _ _ (by decide) (by decide) (by decide) rfl rfl
    ⟨0, 0, by decide⟩
  exact absurd hset (by decide)

/-- Settles O51: the sprite rows are checked before anything is drawn. -/
theorem drawChecksItsAddresses : Obligations.DrawChecksItsAddresses :=
  fun _ _ _ _ hn hrange => guardRange_faultsWith _ hn hrange

end Sys2Proof.Machine

/-! SUPPORT. The statements of `45_timers_input.md`, settled. -/
namespace Sys2Proof.Machine

/-! ### The tick of a step (R160, R168) -/

theorem State.toNat_dt_tick (s : State) : s.tick.dt.toNat = s.dt.toNat - 1 := countDown_toNat s.dt

theorem State.toNat_st_tick (s : State) : s.tick.st.toNat = s.st.toNat - 1 := countDown_toNat s.st

/-- Fx15 alone writes DT (R168). -/
theorem writesOf_dt_of_ne (s : State) {i : Instr} (hi : ∀ x, i ≠ .ldDtVx x) : (writesOf s i).dt = false := by
  cases i with
  | ldDtVx x => exact absurd rfl (hi x)
  | _ => rfl

/-- Settles O15: the tick counts down what the execution left, which is the old value where the frame of the
instruction keeps the timer. -/
theorem timersTickOncePerStep : Obligations.TimersTickOncePerStep := by
  intro s t h
  obtain ⟨hp, w, i, u, hw, hi, hu, rfl⟩ := step_next s t h
  rw [State.toNat_dt_tick, State.toNat_st_tick]
  refine ⟨i, (executes_iff s i).mpr ⟨hp, w, hw, hi⟩, ?_, fun hne => ?_, ?_, fun hne => ?_⟩
  · rintro x rfl
    cases hu
    rfl
  · rw [(exec_frame hu).dt (writesOf_dt_of_ne _ hne), State.dt_advance]
  · rintro x rfl
    cases hu
    rfl
  · rw [(exec_frame hu).st (writesOf_st_of_ne _ hne), State.st_advance]

/-- Settles O59, by induction on the run: O15 gives the tick of its first step. -/
theorem delayTimerCountsSteps : Obligations.DelayTimerCountsSteps := by
  intro n
  induction n with
  | zero =>
    intro s t h _
    cases h
    rfl
  | succ n ih =>
    intro s t h hnone
    obtain ⟨u, hu, hrest⟩ := runSteps_succ_eq_next.mp h
    obtain ⟨i, hi, -, htick, -⟩ := timersTickOncePerStep s u hu
    have hfirst : u.dt.toNat = s.dt.toNat - 1 := by
      refine htick fun x hx => hnone 0 s x n.succ_pos rfl ?_
      rwa [← hx]
    have hlater : t.dt.toNat = u.dt.toNat - n := by
      refine ih u t hrest fun m v x hm hv => hnone (m + 1) v x (Nat.succ_lt_succ hm) ?_
      exact runSteps_succ_eq_next.mpr ⟨u, hu, hv⟩
    omega

/-! ### Fx07, Fx15 and Fx18 (R162, R164, R165) -/

/-- Settles O54: the tick follows the execution, and touches no register. -/
theorem delayTimerReadAndWrite : Obligations.DelayTimerReadAndWrite := by
  refine fun x s => ⟨?_, ?_, fun hi => ?_, fun hi => ?_⟩
  · exact ⟨_, rfl, s.getV_setV_self x _, exec_frame (i := .ldVxDt x) rfl⟩
  · exact ⟨_, rfl, rfl, exec_frame (i := .ldDtVx x) rfl⟩
  · exact ⟨_, step_of_exec_next hi rfl, s.advance.getV_setV_self x _, State.toNat_dt_tick _⟩
  · exact ⟨_, step_of_exec_next hi rfl, State.toNat_dt_tick _⟩

/-- Settles O55: the tone is requested by the ST that the execution left, before the tick. -/
theorem soundTimerWrite : Obligations.SoundTimerWrite := fun x _ =>
  ⟨⟨_, rfl, rfl, exec_frame (i := .ldStVx x) rfl⟩,
   fun hi => ⟨_, _, stepWithOutcome_of_exec_next hi rfl, State.toNat_st_tick _, bne_iff_ne⟩⟩

/-! ### The input latch (R163, R166) -/

/-- Settles O26: the index is in range, and the state answered is the old one but for the latch. -/
theorem setKeyWritesOneKey : Obligations.SetKeyWritesOneKey := fun s index pressed =>
  ⟨{ s with key := s.key.set index.val pressed }, dif_pos index.isLt,
   fun k => (Vector.getElem_set index.isLt k.isLt).trans
     (if_congr (eq_comm.trans Fin.ext_iff.symm) rfl rfl), rfl⟩

section KeyWait

variable {s : State}

/-- Fx0A with k the lowest pressed key (R163; D10). -/
theorem exec_ldVxK_of_lowest (x : Reg) {k : Fin 16} (hk : s.key[k.val] = true)
    (hlow : ∀ j : Fin 16, j < k → s.key[j.val] = false) :
    exec (.ldVxK x) s = .next (s.setV x (BitVec.ofNat 8 k.val)) := by
  simp only [exec, execLdVxK, (firstKey_eq_some s k).mpr ⟨hk, hlow⟩]

/-- Fx0A with no key pressed (R163). -/
theorem exec_ldVxK_of_none (x : Reg) (hnone : ∀ k : Fin 16, s.key[k.val] = false) :
    exec (.ldVxK x) s = .next (s.setPc (s.pc - 2)) := by
  simp only [exec, execLdVxK, (firstKey_eq_none s).mpr hnone]

/-- PC put back by 2 after the fetch's advance is the PC of the fetch (R163). -/
theorem State.advance_setPc_sub_two (s : State) : s.advance.setPc (s.advance.pc - 2) = s := by
  rw [State.pc_advance, BitVec.add_sub_cancel]
  rfl

/-- The step of a waiting Fx0A is a tick (R163, R197). -/
theorem step_eq_tick_of_waiting {x : Reg} (hi : s.executes (.ldVxK x))
    (hnone : ∀ k : Fin 16, s.key[k.val] = false) : step s = .next s.tick := by
  have hexec := exec_ldVxK_of_none (s := s.advance) x hnone
  rw [State.advance_setPc_sub_two] at hexec
  exact step_of_exec_next hi hexec

end KeyWait

/-- Settles O56: whether a key is pressed decides which one write is made. -/
theorem keyWaitTakesTheLowestKey : Obligations.KeyWaitTakesTheLowestKey := by
  refine fun x s => ⟨fun k hk hlow => ?_, fun hnone => ?_⟩
  · have hvalue : (BitVec.ofNat 8 k.val).toNat = k.val :=
      Nat.mod_eq_of_lt (k.isLt.trans (by decide))
    refine ⟨_, exec_ldVxK_of_lowest x hk hlow, ?_, ?_⟩
    · rw [State.getV_setV_self, hvalue]
    · exact (Writes.allows_setV (List.mem_singleton_self x) s _).frame
  · exact ⟨_, exec_ldVxK_of_none x hnone, rfl, (Writes.Allows.setPc rfl _).frame⟩

/-! ### Runs whose every step is a tick (R197, R200) -/

/-- From a state that steps by a tick alone, and so again after it, n steps are n ticks. -/
theorem runSteps_eq_countDownBy {P : State → Prop} (hstep : ∀ s, P s → step s = .next s.tick)
    (htick : ∀ s, P s → P s.tick) (n : Nat) {s : State} (hs : P s) :
    runSteps n s = .next { s with dt := countDownBy n s.dt, st := countDownBy n s.st } := by
  induction n generalizing s with
  | zero => rw [countDownBy_zero, countDownBy_zero]; rfl
  | succ n ih =>
    have hrest := ih (htick s hs)
    rw [State.dt_tick, State.st_tick, countDownBy_succ, countDownBy_succ] at hrest
    exact runSteps_succ_eq_next.mpr ⟨s.tick, hstep s hs, hrest⟩

/-- A tick leaves PC, the phase and memory, so it does not change what the next step executes. -/
theorem State.executes_tick {s : State} {i : Instr} : s.tick.executes i ↔ s.executes i := Iff.rfl

/-- Settles O57: the tick keeps both the instruction and the latch, so the wait goes on. -/
theorem keyWaitOnlyTicks : Obligations.KeyWaitOnlyTicks := fun n x _ hi hnone =>
  runSteps_eq_countDownBy
    (P := fun s => s.executes (.ldVxK x) ∧ ∀ k : Fin 16, s.key[k.val] = false)
    (fun _ ⟨hi, hnone⟩ => step_eq_tick_of_waiting hi hnone)
    (fun _ ⟨hi, hnone⟩ => ⟨State.executes_tick.mpr hi, hnone⟩) n ⟨hi, hnone⟩

end Sys2Proof.Machine

/-! SUPPORT. The statements of `60_exceptions.md`, settled: the fault of each execution said once, by
`execFault`, which is tied to `exec` by `exec_faultsExactly`. -/
namespace Sys2Proof.Machine

/-! ### What an operation answers, its fault given -/

/-- The operation answers the fault named, or a next state where none is named; it is never refused. -/
def FaultsExactly (o : Result) : Option Fault → Prop
  | some f => o = .fault f
  | none => ∃ t, o = .next t

section FaultsExactly

variable {o : Result} {fault : Option Fault}

theorem FaultsExactly.of_ite {P : Prop} [Decidable P] {f : Fault} (hfault : P → o = .fault f)
    (hnext : ¬ P → ∃ t, o = .next t) : FaultsExactly o (if P then some f else none) := by
  split
  · next h => exact hfault h
  · next h => exact hnext h

theorem FaultsExactly.eq_fault_iff (h : FaultsExactly o fault) {f : Fault} :
    o = .fault f ↔ fault = some f := by
  cases fault with
  | some g =>
    obtain rfl : o = .fault g := h
    simp
  | none =>
    obtain ⟨t, rfl⟩ := h
    simp

theorem FaultsExactly.ne_refused (h : FaultsExactly o fault) (r : Refusal) : o ≠ .refused r := by
  cases fault with
  | some g =>
    obtain rfl : o = .fault g := h
    simp
  | none =>
    obtain ⟨t, rfl⟩ := h
    simp

end FaultsExactly

/-! ### The faults of execution (R30, R31, R55, R115, R116, R172) -/

/-- The fault of a check of `len` addresses from I (R55). -/
def indexFault (s : State) (len : Nat) : Option Fault :=
  if 0 < len ∧ Config.memSize < indexAddress s 0 + len then
    some (.addressError (s.pc - 2) (max (indexAddress s 0) Config.memSize))
  else none

/-- The fault of the key port for V[x] (R115, R116; D11). -/
def keyFault (s : State) (x : Reg) : Option Fault :=
  if Config.numKeys ≤ (s.getV x).toNat then some (.keyIndexError (s.pc - 2) (s.getV x)) else none

/-- The fault each instruction raises, if it raises one (R172). -/
def execFault (s : State) : Instr → Option Fault
  | .ret => if s.sp.val = 0 then some (.stackUnderflow (s.pc - 2) 0) else none
  | .call _ =>
    if s.sp.val = Config.stackDepth then some (.stackOverflow (s.pc - 2) s.sp.val) else none
  | .drw _ _ n => indexFault s n
  | .ldBVx _ => indexFault s 3
  | .storeRegs x | .loadRegs x => indexFault s (x.val + 1)
  | .skp x | .sknp x => keyFault s x
  | _ => none

section ExecFault

variable {s : State} {i : Instr} {f : Fault}

theorem guardRange_faultsExactly (len : Nat) (ok : State) :
    FaultsExactly (guardRange s (indexAddress s 0) len ok) (indexFault s len) :=
  .of_ite (fun ⟨hlen, hrange⟩ => guardRange_fault s _ len ok hlen hrange)
    fun hin => ⟨ok, guardRange_ok s _ len ok (by omega)⟩

theorem withKey_faultsExactly (x : Reg) (rest : Bool → State) :
    FaultsExactly (withKey x s rest) (keyFault s x) :=
  .of_ite (withKey_fault s x rest) fun hx => ⟨_, withKey_ok s x rest (Nat.not_le.mp hx)⟩

/-- What every execution answers: the fault of the table, or a next state (R170, R172). -/
theorem exec_faultsExactly (i : Instr) (s : State) : FaultsExactly (exec i s) (execFault s i) := by
  cases i with
  | ret =>
    refine .of_ite exec_ret_empty fun hsp => ?_
    obtain ⟨n, hn⟩ := Nat.exists_eq_succ_of_ne_zero hsp
    have hlt : n < 16 := by omega
    exact ⟨_, exec_ret_ok hlt hn⟩
  | call nnn =>
    refine .of_ite (exec_call_full nnn) fun hsp => ?_
    have hlt : s.sp.val < Config.stackDepth := Nat.lt_of_le_of_ne s.sp.is_le hsp
    exact ⟨_, exec_call_ok nnn hlt⟩
  | drw | ldBVx | storeRegs | loadRegs => exact guardRange_faultsExactly _ _
  | skp x => exact withKey_faultsExactly x s.skipIf
  | sknp x => exact withKey_faultsExactly x fun pressed => s.skipIf !pressed
  | ldVxK x =>
    simp only [exec, execLdVxK]
    split
    · exact ⟨_, rfl⟩
    · exact ⟨_, rfl⟩
  | _ => exact ⟨_, rfl⟩

theorem exec_eq_fault_iff : exec i s = .fault f ↔ execFault s i = some f :=
  (exec_faultsExactly i s).eq_fault_iff

/-- The fault's pc is the address of the fetch, and no execution raises SizeError (R171; D15). -/
theorem execFault_record (h : execFault s i = some f) :
    f.record.pc = some (s.pc - 2) ∧ f.record.kind ≠ .sizeError := by
  cases i with
  | ret | call | drw | ldBVx | storeRegs | loadRegs | skp | sknp =>
    obtain ⟨-, ⟨⟩⟩ := Option.ite_none_right_eq_some.mp h
    exact ⟨rfl, nofun⟩
  | _ => cases h

/-- The fault of an execution reads neither the latch nor the random source (R178). -/
theorem execFault_ignores_inputs (key : Vector Bool 16) (queue : List Byte) (count : Nat) :
    execFault { s with key := key, rngQueue := queue, rngCount := count } i = execFault s i := rfl

end ExecFault

/-- Settles O11, by the table of the faults of execution. -/
theorem executionFaultsByInstruction : Obligations.ExecutionFaultsByInstruction := by
  refine fun i s => ⟨fun f hexec => ?_, (exec_faultsExactly i s).ne_refused⟩
  have h := exec_eq_fault_iff.mp hexec
  cases i with
  | ret =>
    obtain ⟨hsp, ⟨⟩⟩ := Option.ite_none_right_eq_some.mp h
    exact .inl ⟨rfl, rfl, hsp⟩
  | call nnn =>
    obtain ⟨hsp, ⟨⟩⟩ := Option.ite_none_right_eq_some.mp h
    exact .inr (.inl ⟨nnn, rfl, rfl, hsp⟩)
  | drw x y n =>
    obtain ⟨⟨hn, -⟩, ⟨⟩⟩ := Option.ite_none_right_eq_some.mp h
    exact .inr (.inr (.inl ⟨x, y, n, rfl, hn, rfl⟩))
  | ldBVx x | storeRegs x | loadRegs x =>
    obtain ⟨-, ⟨⟩⟩ := Option.ite_none_right_eq_some.mp h
    exact .inr (.inr (.inr (.inl ⟨x, by simp, rfl⟩)))
  | skp x | sknp x =>
    obtain ⟨hx, ⟨⟩⟩ := Option.ite_none_right_eq_some.mp h
    exact .inr (.inr (.inr (.inr ⟨x, by simp, rfl, hx⟩)))
  | _ => cases h

/-! ### The faults of a step (R171, R173, R174, R177, R178) -/

/-- A fault of fetch, of decode or of execution carries the PC of the fetch, and is not SizeError. -/
theorem step_fault_record {s : State} {f : Fault} (h : step s = .fault f) :
    f.record.pc = some s.pc ∧ f.record.kind ≠ .sizeError := by
  obtain ⟨-, ⟨bad, -, rfl⟩ | ⟨w, r, -, -, rfl⟩ | ⟨w, i, -, -, hexec⟩⟩ := step_fault s f h
  · exact ⟨rfl, nofun⟩
  · exact ⟨rfl, nofun⟩
  · have hrecord := execFault_record (exec_eq_fault_iff.mp hexec)
    rwa [State.pc_advance, BitVec.add_sub_cancel] at hrecord

theorem stateAfter_of_fault {op : HostOp} {s : State} {f : Fault} (h : runHostOp op s = .fault f) :
    stateAfter op s = s := by
  simp [stateAfter, h]

/-- Settles O10: the fault comes without a state, so the second step is the first one again. -/
theorem stepFaultIsPrecise : Obligations.StepFaultIsPrecise := by
  intro s f h
  have hstay : stateAfter .step s = s := stateAfter_of_fault h
  obtain ⟨hpc, hkind⟩ := step_fault_record h
  exact ⟨hpc, hkind, hstay, hstay.symm ▸ h⟩

/-- Settles O12: fetch and decode read neither the latch nor the random source, and the fault of an
execution does not depend on them. -/
theorem faultsIgnoreLatchAndDraws : Obligations.FaultsIgnoreLatchAndDraws := by
  intro s f h key queue count
  obtain ⟨hp, ⟨bad, hw, rfl⟩ | ⟨w, r, hw, hd, rfl⟩ | ⟨w, i, hw, hd, hexec⟩⟩ := step_fault s f h
  · exact step_of_fetch_error _ bad hp hw
  · exact step_of_decode_error _ w r hp hw hd
  · have hfault := (execFault_ignores_inputs key queue count).trans (exec_eq_fault_iff.mp hexec)
    exact step_of_exec_fault ((executes_iff _ i).mpr ⟨hp, w, hw, hd⟩) (exec_eq_fault_iff.mpr hfault)

/-! ### The host's way on (R180) -/

/-- Settles O25: `skip()` is the advance of PC and the tick, three writes in all. -/
theorem skipPassesOverAndTicks : Obligations.SkipPassesOverAndTicks := by
  intro s hp
  have hskip : skip s = .next s.advance.tick := by simp [skip, hp]
  have hwrites : Writes.Reaches { pc := true, dt := true, st := true } s
      ((s.advance.setDt (countDown s.dt)).setSt (countDown s.st)) :=
    .head (.setPc rfl _) (.head (.setDt rfl _) (.single (.setSt rfl _)))
  exact ⟨_, hskip, BitVec.toNat_add .., State.toNat_dt_tick _, State.toNat_st_tick _, hwrites.frame⟩

end Sys2Proof.Machine

/-! SUPPORT. The statements of `70_reset_and_hazards.md`, settled. -/
namespace Sys2Proof.Machine

/-! ### Loading an image (R192, R193) -/

section LoadProgram

variable {s : State} {bytes : List Byte}

theorem loadProgram_oversize (hinit : s.phase = .init) (hlen : Config.progMax < bytes.length) :
    loadProgram bytes s = .fault (.sizeError bytes.length) := by
  simp [loadProgram, hinit, hlen]

/-- What a load answers is the store of its image into the loaded core, and so has the frame of a store. -/
theorem loadProgram_frame {t : State} (h : loadProgram bytes s = .next t) :
    Frame { memStart := Config.progBase, memLen := bytes.length } { s with phase := .loaded } t := by
  obtain ⟨-, hlen, rfl⟩ := loadProgram_next s bytes t h
  exact (Writes.Allows.storeBytes (w := { memStart := Config.progBase, memLen := bytes.length })
    rfl (Nat.add_le_add_left hlen Config.progBase)).frame

end LoadProgram

/-- Settles O23: the image is read back by the rule of a store, and the phase is the one other write. -/
theorem loadProgramPlacesTheImage : Obligations.LoadProgramPlacesTheImage := by
  intro s bytes hmem hinit hlen
  have hload := loadProgram_ok s bytes hinit hlen
  exact ⟨_, hload, rfl,
    fun k hk => readByte_storeBytes_add hmem Config.progBase (List.getElem?_eq_getElem hk),
    loadProgram_frame hload⟩

/-- Settles O24: the length is compared with the most that fits before anything is stored. -/
theorem oversizeLoadIsSizeError : Obligations.OversizeLoadIsSizeError := by
  refine fun s bytes hinit => ⟨fun hlen => ?_, fun hlen => ⟨_, loadProgram_ok s bytes hinit hlen.le⟩⟩
  have hfault := loadProgram_oversize hinit hlen
  exact ⟨⟨_, hfault, rfl, rfl⟩, stateAfter_of_fault hfault⟩

/-! ### The self-jump (R200) -/

/-- The step of a self-jump is a tick: the jump undoes the fetch's advance (R102; D25). -/
theorem step_eq_tick_of_atSelfJump {s : State} (h : s.atSelfJump) : step s = .next s.tick := by
  obtain ⟨nnn, hexecutes, htarget⟩ := h
  have hback : s.advance.setPc (addrOperand nnn) = s := by
    rw [htarget]
    rfl
  have hjump : exec (.jp nnn) s.advance = .next s := congrArg Host.Outcome.next hback
  exact step_of_exec_next hexecutes hjump

/-- A tick keeps both the jump and its address. -/
theorem State.atSelfJump_tick {s : State} : s.tick.atSelfJump ↔ s.atSelfJump := Iff.rfl

/-- Settles O58: the tick keeps the self-jump, so every later step is a tick again. -/
theorem selfJumpOnlyTicks : Obligations.SelfJumpOnlyTicks := fun n _ =>
  runSteps_eq_countDownBy (P := State.atSelfJump) (fun _ => step_eq_tick_of_atSelfJump)
    (fun _ => State.atSelfJump_tick.mpr) n

end Sys2Proof.Machine
